-- ==== Sys2Proof/Word.lean ====
section
/-!
DEFINITION. The word and byte of the core (00_scope.md R9): unsigned 32-bit words, unsigned 8-bit bytes.
-/

namespace Sys2Proof

/-- A word: an unsigned 32-bit value (R9). `+` on it is the `add32` of R10. -/
abbrev Word := BitVec 32

/-- A byte: an unsigned 8-bit value (R9). -/
abbrev Byte := BitVec 8

end Sys2Proof
end

