-- ==== Sys2Proof/Config.lean ====
section
/-!
DEFINITION. What an implementation fixes and what the spec leaves free. The opaque constants have no body that a
proof could see, so a theorem about them holds whatever they are.
-/

namespace Sys2Proof.Config

/-- Free 32-bit values, one for each draw: registers after reset (70_reset_and_hazards.md R118, R119) and reads
while busy (20_memory.md R40). DESIGN CHOICE: numbered by the counter `State.draws` (notes/assumptions 1, 2, 3). -/
opaque freeWord : Nat → Word

/-- Free latencies, one for each accepted command: the number of host steps between its issue and its completion,
any finite number (42_driver.md R85, R127). DESIGN CHOICE: numbered by `State.draws` (notes/assumptions 4). -/
opaque freeLatency : Nat → Nat

/-- The open parameter behind `BASE` (00_scope.md R8): the number of the 256-byte page the window fills
(notes/assumptions 7). -/
opaque basePage : Nat

/-- `BASE`, the window's address on the host bus: a multiple of 0x100 (R8, R32). -/
def base : Nat := 0x100 * basePage

end Sys2Proof.Config
end

