-- ==== Sys2Proof/Syntax.lean ====
section
/-!
DEFINITION. The commands of the core, one constructor per row of spec/opcode_table.json (30_encoding.md R52).
-/

namespace Sys2Proof

/-- The commands (R52). The tail length `r` is a number of bytes (R51); `Instr.wellFormed` bounds it by 63. -/
inductive Instr where
  /-- NOP, OP 0x0 (42_driver.md R86). -/
  | nop
  /-- INIT, OP 0x1 (42_driver.md R87). -/
  | init
  /-- COMPRESS, OP 0x2 (42_driver.md R88). -/
  | compress
  /-- FINAL r, OP 0x3 (42_driver.md R89). -/
  | final (r : Nat)
  /-- FORMAT r, OP 0x4 (40_padding.md R67). -/
  | format (r : Nat)
  /-- RAWCOMP, OP 0x5 (41_compression.md R82). -/
  | rawcomp
  deriving DecidableEq, Repr

end Sys2Proof
end

