-- ==== Sys2Proof/WellFormed.lean ====
section
/-!
DEFINITION. Which commands an encoding exists for: the tail length is a 6-bit number (30_encoding.md R51).
-/

namespace Sys2Proof

/-- A command is well formed when its tail length, if it has one, lies in 0..63 (R51: every value 0..63 is legal). -/
def Instr.wellFormed : Instr → Bool
  | .nop => true
  | .init => true
  | .compress => true
  | .final r => decide (r ≤ 63)
  | .format r => decide (r ≤ 63)
  | .rawcomp => true

/-- Which commands the core holds pending: every one but NOP, which returns at issue (42_driver.md R84, R86). -/
def Instr.isPendable : Instr → Bool
  | .nop => false
  | .init => true
  | .compress => true
  | .final _ => true
  | .format _ => true
  | .rawcomp => true

end Sys2Proof
end

