-- ==== Sys2Proof/Decode.lean ====
section
/-!
DEFINITION. The command word: its fields, the decoder (30_encoding.md R53), the encoder (R55) and the opcode table.
-/

namespace Sys2Proof

/-! ### Byte order -/

/-- `le32(b0, b1, b2, b3) = b0 + 2^8*b1 + 2^16*b2 + 2^24*b3` (R57). -/
def le32 (b0 b1 b2 b3 : Byte) : Word :=
  BitVec.ofNat 32 (b0.toNat + 2 ^ 8 * b1.toNat + 2 ^ 16 * b2.toNat + 2 ^ 24 * b3.toNat)

/-- Byte `k` of a word, bits `8k+7 : 8k` (43_codec.md R95). -/
def byteOf (w : Word) (k : Nat) : Byte := w.extractLsb' (8 * k) 8

/-- The four bytes of a word, least significant first (R95). -/
def wordBytes (w : Word) : List Byte := [byteOf w 0, byteOf w 1, byteOf w 2, byteOf w 3]

/-! ### Fields of the command word (R50) -/

/-- RSV1, bits 31:14: reserved, must be 0. -/
def rsv1Field (w : Word) : BitVec 18 := w.extractLsb' 14 18

/-- TAIL, bits 13:8: the tail length. -/
def tailField (w : Word) : BitVec 6 := w.extractLsb' 8 6

/-- RSV0, bits 7:4: reserved, must be 0. -/
def rsv0Field (w : Word) : BitVec 4 := w.extractLsb' 4 4

/-- OP, bits 3:0: the opcode. -/
def opField (w : Word) : BitVec 4 := w.extractLsb' 0 4

/-! ### Decoder -/

/-- Why a word is no command (R54). -/
inductive Illegal where
  /-- A bit of RSV1 is set. -/
  | rsv1Set
  /-- A bit of RSV0 is set. -/
  | rsv0Set
  /-- OP is 0x6..0xF. -/
  | reservedOpcode
  /-- TAIL is not 0 and the opcode takes no tail. -/
  | tailNotTaken
  /-- Fewer than the four bytes a command word has (R49). -/
  | shortWord
  deriving DecidableEq, Repr

/-- What the decoder answers: `Cmd(op, r)` or `Illegal` (R53). -/
inductive Decoded where
  | command (i : Instr)
  | illegal (why : Illegal)
  deriving DecidableEq, Repr

/-- A command that takes no tail: legal only with TAIL = 0 (R53, R54). -/
def withoutTail (tail : Nat) (i : Instr) : Decoded :=
  if tail = 0 then .command i else .illegal .tailNotTaken

/-- The decoder, total on every 32-bit word (R53). -/
def decode (w : Word) : Decoded :=
  if rsv1Field w ≠ 0 then .illegal .rsv1Set
  else if rsv0Field w ≠ 0 then .illegal .rsv0Set
  else
    match (opField w).toNat with
    | 0x0 => withoutTail (tailField w).toNat .nop
    | 0x1 => withoutTail (tailField w).toNat .init
    | 0x2 => withoutTail (tailField w).toNat .compress
    | 0x3 => .command (.final (tailField w).toNat)
    | 0x4 => .command (.format (tailField w).toNat)
    | 0x5 => withoutTail (tailField w).toNat .rawcomp
    | _ => .illegal .reservedOpcode

/-- The decoder on bytes in the order of the window, lowest address first (20_memory.md R34): it reads one
four-byte command word and gives back the rest. -/
def decodeBytes : List Byte → Decoded × List Byte
  | b0 :: b1 :: b2 :: b3 :: rest => (decode (le32 b0 b1 b2 b3), rest)
  | bytes => (.illegal .shortWord, bytes)

/-- The command a decoder's answer holds, if any. -/
def Decoded.instr? : Decoded → Option Instr
  | .command i => some i
  | .illegal _ => none

/-- The decoder on an instruction numbered as spec/opcode_table.json numbers it: `nbits` bits, 32 at most, the bits
above them 0, laid out in the window's byte order. -/
def decodeTableWord (nbits w : Nat) : Option Instr :=
  if nbits ≤ 32 ∧ w < 2 ^ nbits then (decodeBytes (wordBytes (BitVec.ofNat 32 w))).1.instr? else none

/-! ### Encoder -/

/-- The opcode of a command (R52). -/
def Instr.opcode : Instr → Nat
  | .nop => 0x0
  | .init => 0x1
  | .compress => 0x2
  | .final _ => 0x3
  | .format _ => 0x4
  | .rawcomp => 0x5

/-- The TAIL operand of a command, 0 where it takes none (R50, R52). -/
def Instr.tail : Instr → Nat
  | .nop => 0
  | .init => 0
  | .compress => 0
  | .final r => r
  | .format r => r
  | .rawcomp => 0

/-- The command word of a command: `OP + (TAIL << 8)` (R55). -/
def encode (i : Instr) : Word := BitVec.ofNat 32 (i.opcode + 2 ^ 8 * i.tail)

/-! ### Opcode table -/

/-- A row of spec/opcode_table.json: a word is of the row when its bits under `mask` are `pattern`. -/
structure OpcodeRow where
  mnemonic : String
  pattern : Word
  mask : Word
  deriving DecidableEq, Repr

/-- spec/opcode_table.json. -/
def opcodeTable : List OpcodeRow :=
  [⟨"NOP", 0x00000000, 0xFFFFFFFF⟩,
   ⟨"INIT", 0x00000001, 0xFFFFFFFF⟩,
   ⟨"COMPRESS", 0x00000002, 0xFFFFFFFF⟩,
   ⟨"FINAL", 0x00000003, 0xFFFFC0FF⟩,
   ⟨"FORMAT", 0x00000004, 0xFFFFC0FF⟩,
   ⟨"RAWCOMP", 0x00000005, 0xFFFFFFFF⟩]

/-- Whether a word is of a row: `(w and mask) = match` (R53). -/
def OpcodeRow.admits (row : OpcodeRow) (w : Word) : Bool := decide (w &&& row.mask = row.pattern)

/-- The mnemonic of a command (R52). -/
def Instr.mnemonic : Instr → String
  | .nop => "NOP"
  | .init => "INIT"
  | .compress => "COMPRESS"
  | .final _ => "FINAL"
  | .format _ => "FORMAT"
  | .rawcomp => "RAWCOMP"

end Sys2Proof
end

