-- ==== Sys2Proof/Machine/State.lean ====
section
/-!
DEFINITION. The state of the core, as plain data (10_state.md R14), its reset (70_reset_and_hazards.md R118), and the
reasons a step can stop. Four kinds of field: the registers the host sees, the hidden registers, the host's side of the
bus, and the model's own scheduling data (notes/assumptions 2, 4, 5, 6).
-/

namespace Sys2Proof.Machine

/-- The two agents that step the machine (R13). -/
inductive Agent where
  | host
  | core
  deriving DecidableEq, Repr

/-- What the host, or its platform, does in one of its steps. `off` is the window offset: the core decodes nothing
else of an address (20_memory.md R32; notes/assumptions 7). -/
inductive HostEvent where
  /-- `MemRead(BASE + off, n)` (R38). -/
  | read (off : BitVec 8) (n : Nat)
  /-- `MemWrite(BASE + off, n, v)` (R38). -/
  | write (off : BitVec 8) (n : Nat) (v : Word)
  /-- The polling loop `wait` (30_encoding.md R57): read STATUS, again and again until BUSY = 0. -/
  | wait
  /-- A platform reset of the core (R118). -/
  | reset
  deriving DecidableEq, Repr

/-- What the bus answers to one transaction. -/
inductive Answer where
  /-- A write that completes normally, whether or not the core took what it carried (60_exceptions.md R99). -/
  | ok
  /-- The value a read returns, zero-extended (R38). -/
  | data (v : Word)
  /-- The error response `BusError(BASE + off)` (R100). -/
  | busError (off : BitVec 8)
  deriving DecidableEq, Repr

/-- The causes of a rejection (R102). -/
inductive CmdError where
  | illegalCmd
  | busy
  | sequence
  | inputTooLarge
  deriving DecidableEq, Repr

/-- STATUS (R21). Its reserved bits read as 0 and ignore writes, so they have no storage. -/
@[ext]
structure Status where
  /-- Bit 0, BUSY: a command is pending (R22). -/
  busy : Bool
  /-- Bit 1, ERR: a command or write has been rejected (R25). -/
  err : Bool
  /-- Bit 2, DONE: FINAL has completed since the last INIT or reset (R23). -/
  done : Bool
  /-- Bit 3, PAD2: the last FORMAT or FINAL made two trailer blocks (R24). -/
  pad2 : Bool
  /-- Bits 11:8, ERRCODE: the cause of the latest rejection (R25, R102). -/
  errCode : BitVec 4
  deriving DecidableEq, Repr

/-- The chaining state's words H0..H4, in order A, B, C, D, E (R16). -/
abbrev Chain := Vector Word 5

/-- A block: sixteen words (R18). -/
abbrev Block := Vector Word 16

/-- A line quintuple `(a, b, c, d, e)` (R28). -/
@[ext]
structure Line where
  a : Word
  b : Word
  c : Word
  d : Word
  e : Word
  deriving DecidableEq, Repr

/-- The working registers of a compression (R28). The host sees none of them (notes/assumptions 10). -/
@[ext]
structure Work where
  /-- The copy of the incoming state. -/
  h : Chain
  /-- The left line quintuple. -/
  left : Line
  /-- The right line quintuple. -/
  right : Line
  /-- The step counter, 0..80 (R30). -/
  j : Nat
  deriving DecidableEq, Repr

/-- Why the machine stops with a fault. -/
inductive Fault where
  /-- Raised by a STATUS read, or a `wait`, that meets an ERRCODE of 5..15. The spec: never produced, and a model that
  reads one has found a bug (93_implementation_defined.md U6, 60_exceptions.md R102). Safe: no run from reset has such
  a code (`State.Inv`; notes/assumptions 9). -/
  | reservedErrCode
  deriving DecidableEq, Repr

/-- Why a step has no meaning. -/
inductive Refusal where
  /-- Raised by `exec` alone, in the arm of a command that has no meaning yet; no arm does now. Safe. -/
  | notModelled (mnemonic : String)
  deriving DecidableEq, Repr

/-- The state. -/
@[ext]
structure State where
  /-- H0..H4 (R16). -/
  h : Chain
  /-- X0..X15, the block buffer (R18). -/
  x : Block
  /-- Y0..Y15, the trailer buffer (R19). -/
  y : Block
  /-- STATUS (R21). -/
  status : Status
  /-- BLKCNT (R26). -/
  blkcnt : Word
  /-- PEND, the pending command or none (R27; notes/assumptions 13). -/
  pend : Option Instr
  /-- The hidden working registers (R28). -/
  work : Work
  /-- The model's own: the agent that moves next (R13, R85). -/
  turn : Agent
  /-- The model's own: host steps left before the pending command's completion (R85). -/
  delay : Nat
  /-- The host's side: what the host does next, oldest first. -/
  inbox : List HostEvent
  /-- The host's side: what the bus has answered, newest first. -/
  answers : List Answer
  /-- The model's own: how many free values have been taken. -/
  draws : Nat
  deriving DecidableEq, Repr

/-- What a step or a meaning answers. -/
abbrev Result := Host.Outcome State Fault Refusal

/-- What the agent whose turn it is does: a command to run in a state, or an answer already. -/
inductive Move where
  | run (i : Instr) (s : State)
  | done (o : Result)

/-- STATUS after reset: 0x00000000 (R118). -/
def Status.reset : Status :=
  { busy := false, err := false, done := false, pad2 := false, errCode := 0 }

/-- A line of five free values. -/
def Line.free (d : Nat) : Line :=
  { a := Config.freeWord d, b := Config.freeWord (d + 1), c := Config.freeWord (d + 2),
    d := Config.freeWord (d + 3), e := Config.freeWord (d + 4) }

/-- How many free values one reset takes. -/
def resetDraws : Nat := 53

/-- The machine after a reset whose free values are numbered from `d` on (R118, R119): STATUS and BLKCNT 0, PEND none,
and a free value in every register the spec leaves unspecified. DESIGN CHOICE (notes/assumptions 1, 10). -/
def State.powerOn (d : Nat) : State :=
  { h := Vector.ofFn fun i => Config.freeWord (d + i.val)
    x := Vector.ofFn fun i => Config.freeWord (d + 5 + i.val)
    y := Vector.ofFn fun i => Config.freeWord (d + 21 + i.val)
    status := Status.reset
    blkcnt := 0
    pend := none
    work :=
      { left := Line.free (d + 37)
        right := Line.free (d + 42)
        h := Vector.ofFn fun i => Config.freeWord (d + 47 + i.val)
        j := (Config.freeWord (d + 52)).toNat % 81 }
    turn := .host
    delay := 0
    inbox := []
    answers := []
    draws := d + resetDraws }

/-- The machine right after power-on: the host has nothing to do yet (R118). -/
def State.reset : State := State.powerOn 0

end Sys2Proof.Machine
end

