-- ==== Sys2Proof/Machine/Compression.lean ====
section
/-!
DEFINITION. The compression core: boolean functions, constants, tables, one step, 80 steps, combine
(41_compression.md R68 to R79). All arithmetic is modulo 2^32 (R80).
-/

namespace Sys2Proof.Machine

/-- `rol32(x, s)` for 1 <= s <= 31 (00_scope.md R10). -/
def rol32 (x : Word) (s : Nat) : Word := (x <<< s) ||| (x >>> (32 - s))

/-! ### Boolean functions (R68) -/

/-- F of R68. -/
def boolF (x y z : Word) : Word := x ^^^ y ^^^ z

/-- G of R68. -/
def boolG (x y z : Word) : Word := (x &&& y) ||| (~~~x &&& z)

/-- H of R68. -/
def boolH (x y z : Word) : Word := (x ||| ~~~y) ^^^ z

/-- I of R68. -/
def boolI (x y z : Word) : Word := (x &&& z) ||| (y &&& ~~~z)

/-- J of R68. -/
def boolJ (x y z : Word) : Word := x ^^^ (y ||| ~~~z)

/-! ### Round functions and constants -/

/-- The round 1..5 of step `j` (R69). -/
def roundOf (j : Nat) : Nat := j / 16 + 1

/-- The left line's function of a round: F, G, H, I, J (R69). -/
def fL : Nat → Word → Word → Word → Word
  | 1 => boolF
  | 2 => boolG
  | 3 => boolH
  | 4 => boolI
  | _ => boolJ

/-- The right line's function of a round: J, I, H, G, F (R69). -/
def fR : Nat → Word → Word → Word → Word
  | 1 => boolJ
  | 2 => boolI
  | 3 => boolH
  | 4 => boolG
  | _ => boolF

/-- The left line's constant of a round (R70). -/
def kL : Nat → Word
  | 1 => 0x00000000
  | 2 => 0x5A827999
  | 3 => 0x6ED9EBA1
  | 4 => 0x8F1BBCDC
  | _ => 0xA953FD4E

/-- The right line's constant of a round (R70; 90_conflicts.md C1). -/
def kR : Nat → Word
  | 1 => 0x50A28BE6
  | 2 => 0x5C4DD124
  | 3 => 0x6D703EF3
  | 4 => 0x7A6D76E9
  | _ => 0x00000000

/-! ### Tables, a row per round (R75; notes/assumptions 16) -/

/-- Left-line message word order (R71). -/
def wordOrderL : List (List (Fin 16)) :=
  [[0, 1, 2, 3, 4, 5, 6, 7, 8, 9, 10, 11, 12, 13, 14, 15],
   [7, 4, 13, 1, 10, 6, 15, 3, 12, 0, 9, 5, 2, 14, 11, 8],
   [3, 10, 14, 4, 9, 15, 8, 1, 2, 7, 0, 6, 13, 11, 5, 12],
   [1, 9, 11, 10, 0, 8, 12, 4, 13, 3, 7, 15, 14, 5, 6, 2],
   [4, 0, 5, 9, 7, 12, 2, 10, 14, 1, 3, 8, 11, 6, 15, 13]]

/-- Right-line message word order (R72). -/
def wordOrderR : List (List (Fin 16)) :=
  [[5, 14, 7, 0, 9, 2, 11, 4, 13, 6, 15, 8, 1, 10, 3, 12],
   [6, 11, 3, 7, 0, 13, 5, 10, 14, 15, 8, 12, 4, 9, 1, 2],
   [15, 5, 1, 3, 7, 14, 6, 9, 11, 8, 12, 2, 10, 0, 4, 13],
   [8, 6, 4, 1, 3, 11, 15, 0, 5, 12, 2, 13, 9, 7, 10, 14],
   [12, 15, 10, 4, 1, 5, 8, 7, 6, 2, 13, 14, 0, 3, 9, 11]]

/-- Left-line rotate amounts (R73). -/
def rotateL : List (List Nat) :=
  [[11, 14, 15, 12, 5, 8, 7, 9, 11, 13, 14, 15, 6, 7, 9, 8],
   [7, 6, 8, 13, 11, 9, 7, 15, 7, 12, 15, 9, 11, 7, 13, 12],
   [11, 13, 6, 7, 14, 9, 13, 15, 14, 8, 13, 6, 5, 12, 7, 5],
   [11, 12, 14, 15, 14, 15, 9, 8, 9, 14, 5, 6, 8, 6, 5, 12],
   [9, 15, 5, 11, 6, 8, 13, 12, 5, 12, 13, 14, 11, 8, 5, 6]]

/-- Right-line rotate amounts (R74). -/
def rotateR : List (List Nat) :=
  [[8, 9, 9, 11, 13, 15, 15, 5, 7, 7, 8, 11, 14, 14, 12, 6],
   [9, 13, 15, 7, 12, 8, 9, 11, 7, 7, 12, 7, 6, 15, 13, 11],
   [9, 7, 15, 11, 8, 6, 6, 14, 12, 13, 5, 14, 13, 13, 7, 5],
   [15, 5, 8, 11, 14, 14, 6, 14, 6, 9, 12, 9, 12, 5, 15, 8],
   [8, 5, 12, 9, 12, 5, 14, 6, 8, 13, 6, 5, 15, 13, 11, 11]]

/-- The entry of step `j = 16(ρ-1) + k`: place `k` of row `ρ` (R71). -/
def entryAt {α : Type} (fallback : α) (table : List (List α)) (j : Nat) : α :=
  (table.getD (j / 16) []).getD (j % 16) fallback

/-- The message word index of the left line at step `j` (R71). -/
def wL (j : Nat) : Fin 16 := entryAt 0 wordOrderL j

/-- The message word index of the right line at step `j` (R72). -/
def wR (j : Nat) : Fin 16 := entryAt 0 wordOrderR j

/-- The rotate amount of the left line at step `j` (R73). -/
def sL (j : Nat) : Nat := entryAt 0 rotateL j

/-- The rotate amount of the right line at step `j` (R74). -/
def sR (j : Nat) : Nat := entryAt 0 rotateR j

/-! ### One step (R76) -/

/-- One step of one line (R76). -/
def lineStep (φ : Word → Word → Word → Word) (k x : Word) (s : Nat) (l : Line) : Line :=
  { a := l.e
    b := rol32 (l.a + φ l.b l.c l.d + x + k) s + l.e
    c := l.b
    d := rol32 l.c 10
    e := l.d }

/-- The left line's step `j` (R77). -/
def leftStep (m : Block) (j : Nat) (l : Line) : Line :=
  lineStep (fL (roundOf j)) (kL (roundOf j)) m[wL j] (sL j) l

/-- The right line's step `j` (R77). -/
def rightStep (m : Block) (j : Nat) (l : Line) : Line :=
  lineStep (fR (roundOf j)) (kR (roundOf j)) m[wR j] (sR j) l

/-! ### The function (R77, R78, R79) -/

/-- The line quintuple both lines start from (R77). -/
def Line.ofChain (h : Chain) : Line := { a := h[0], b := h[1], c := h[2], d := h[3], e := h[4] }

/-- The working registers at the start of a compression (R77, R30). -/
def Work.start (h : Chain) : Work :=
  { h := h, left := Line.ofChain h, right := Line.ofChain h, j := 0 }

/-- One step of each line (R77). -/
def Work.advance (m : Block) (w : Work) : Work :=
  { w with left := leftStep m w.j w.left, right := rightStep m w.j w.right, j := w.j + 1 }

/-- `n` steps of each line. -/
def Work.steps (m : Block) : Nat → Work → Work
  | 0, w => w
  | n + 1, w => Work.steps m n (w.advance m)

/-- The working registers after all 80 steps (R77). -/
def runLines (h : Chain) (m : Block) : Work := (Work.start h).steps m 80

/-- The combine after all 80 steps of both lines (R78). -/
def Work.combine (w : Work) : Chain :=
  #v[w.h[1] + w.left.c + w.right.d,
     w.h[2] + w.left.d + w.right.e,
     w.h[3] + w.left.e + w.right.a,
     w.h[4] + w.left.a + w.right.b,
     w.h[0] + w.left.b + w.right.c]

/-- `compress(h, X)` (R79). -/
def compress (h : Chain) (m : Block) : Chain := (runLines h m).combine

/-- The IV (10_state.md R17). -/
def iv : Chain := #v[0x67452301, 0xEFCDAB89, 0x98BADCFE, 0x10325476, 0xC3D2E1F0]

end Sys2Proof.Machine
end

