-- ==== Sys2Proof/Machine/Flags.lean ====
section
/-!
DEFINITION. STATUS as a word (10_state.md R21), the error codes (60_exceptions.md R102), and every rule that computes
a flag (R22 to R25).
-/

namespace Sys2Proof.Machine

/-- ERRCODE of a cause (R102). -/
def CmdError.code : CmdError → BitVec 4
  | .illegalCmd => 1
  | .busy => 2
  | .sequence => 3
  | .inputTooLarge => 4

/-- A flag as bit 0 of a word. -/
def flagBit (b : Bool) : Word := if b then 1 else 0

/-- STATUS as the host reads it: `BUSY | ERR<<1 | DONE<<2 | PAD2<<3 | ERRCODE<<8`, reserved bits 0 (R21). -/
def Status.word (t : Status) : Word :=
  flagBit t.busy ||| (flagBit t.err <<< 1) ||| (flagBit t.done <<< 2) ||| (flagBit t.pad2 <<< 3)
    ||| (t.errCode.zeroExtend 32 <<< 8)

/-- Whether ERRCODE is one of 5..15, which are never produced (R102). -/
def Status.reserved (t : Status) : Bool := decide (5 ≤ t.errCode.toNat)

/-- A rejection: ERR set, ERRCODE the cause, an earlier cause lost (R25, R101). -/
def Status.reject (t : Status) (c : CmdError) : Status := { t with err := true, errCode := c.code }

/-- A STATUS write of `w`: bit 1 set clears ERR and ERRCODE; nothing else happens (R21, R109). -/
def Status.write (t : Status) (w : Word) : Status :=
  if w.getLsbD 1 then { t with err := false, errCode := 0 } else t

/-- BUSY (R22). -/
def Status.setBusy (t : Status) (b : Bool) : Status := { t with busy := b }

/-- DONE (R23). -/
def Status.setDone (t : Status) (b : Bool) : Status := { t with done := b }

/-- PAD2 (R24). -/
def Status.setPad2 (t : Status) (b : Bool) : Status := { t with pad2 := b }

end Sys2Proof.Machine
end

