-- ==== Sys2Proof/Machine/Operands.lean ====
section
/-!
DEFINITION. The operand forms of a host transaction: regions (20_memory.md R33), allowed widths (R36, R37), byte lanes
(R39) and the little-endian value of an access (R34, R38).
-/

namespace Sys2Proof.Machine

/-- The regions of the window (R33), the control words apart. -/
inductive Region where
  | cmd
  | status
  | blkcnt
  | h
  | x
  | y
  | reserved
  deriving DecidableEq, Repr

/-- The direction of a transaction. -/
inductive Direction where
  | read
  | write
  deriving DecidableEq, Repr

/-- The region of an offset (R33, 10_state.md R15). -/
def regionOf (off : Nat) : Region :=
  if off ≤ 0x03 then .cmd
  else if off ≤ 0x07 then .status
  else if off ≤ 0x0B then .blkcnt
  else if off ≤ 0x0F then .reserved
  else if off ≤ 0x23 then .h
  else if off ≤ 0x3F then .reserved
  else if off ≤ 0x7F then .x
  else if off ≤ 0xBF then .y
  else .reserved

/-- The widths a region admits in a direction (R37). -/
def Region.widths : Region → Direction → List Nat
  | .cmd, .read => [4]
  | .cmd, .write => [4]
  | .status, .read => [4]
  | .status, .write => [4]
  | .blkcnt, .read => [4]
  | .blkcnt, .write => []
  | .h, .read => [1, 2, 4]
  | .h, .write => [1, 2, 4]
  | .x, .read => [1, 2, 4]
  | .x, .write => [1, 2, 4]
  | .y, .read => [1, 2, 4]
  | .y, .write => []
  | .reserved, .read => []
  | .reserved, .write => []

/-- Whether an access is allowed: a width the region admits (which puts it in 1, 2, 4), naturally aligned (R36). -/
def allowed (off n : Nat) (dir : Direction) : Bool :=
  ((regionOf off).widths dir).contains n && off % n == 0

/-! ### Byte lanes (R39) -/

/-- Lane `j` of a word after lane `k` has been written (R39). -/
def laneAfter (w : Word) (k : Nat) (b : Byte) (j : Nat) : Byte := if j = k then b else byteOf w j

/-- Write lane `k` of a word, the other 24 bits unchanged (R39). -/
def setByteOf (w : Word) (k : Nat) (b : Byte) : Word :=
  le32 (laneAfter w k b 0) (laneAfter w k b 1) (laneAfter w k b 2) (laneAfter w k b 3)

/-- Word `i` of a register array. -/
def wordAt {n : Nat} (v : Vector Word n) (i : Nat) : Word := v.toList.getD i 0

/-- `getbyte(o)` of the H, X and Y windows (R39); 0 elsewhere, where no access reads it. -/
def getByte (s : State) (o : Nat) : Byte :=
  match regionOf o with
  | .h => byteOf (wordAt s.h ((o - 0x10) / 4)) (o % 4)
  | .x => byteOf (wordAt s.x ((o - 0x40) / 4)) (o % 4)
  | .y => byteOf (wordAt s.y ((o - 0x80) / 4)) (o % 4)
  | .cmd => 0
  | .status => 0
  | .blkcnt => 0
  | .reserved => 0

/-- Write lane `o mod 4` of word `i` of a register array. -/
def setLane {n : Nat} (v : Vector Word n) (i o : Nat) (b : Byte) : Vector Word n :=
  v.setIfInBounds i (setByteOf (wordAt v i) (o % 4) b)

/-- `setbyte(o, b)` of the H and X windows (R39); nothing elsewhere, where no access writes. -/
def setByte (s : State) (o : Nat) (b : Byte) : State :=
  match regionOf o with
  | .h => { s with h := setLane s.h ((o - 0x10) / 4) o b }
  | .x => { s with x := setLane s.x ((o - 0x40) / 4) o b }
  | .y => s
  | .cmd => s
  | .status => s
  | .blkcnt => s
  | .reserved => s

/-! ### Multi-byte values (R34, R38) -/

/-- `sum_{k<n} getbyte(o+k) * 2^(8k)` (R38). -/
def readValue (s : State) (o : Nat) : Nat → Nat
  | 0 => 0
  | n + 1 => (getByte s o).toNat + 2 ^ 8 * readValue s (o + 1) n

/-- `for k in 0..n-1: setbyte(o+k, v[8k+7:8k])` (R38), from byte `k` of `v` on. -/
def writeBytes (v : Word) (o k : Nat) : Nat → State → State
  | 0, s => s
  | n + 1, s => writeBytes v o (k + 1) n (setByte s (o + k) (byteOf v k))

end Sys2Proof.Machine
end

