-- ==== Sys2Proof/Machine/Codec.lean ====
section
/-!
DEFINITION. The little-endian word codec (43_codec.md R94, R95), bytes of blocks, and the digest (R97).
-/

namespace Sys2Proof.Machine

/-- `bytes_to_words_le` (R94). The caller gives a length that is a multiple of 4; a shorter rest is dropped. -/
def bytesToWords : List Byte → List Word
  | b0 :: b1 :: b2 :: b3 :: rest => le32 b0 b1 b2 b3 :: bytesToWords rest
  | _ => []

/-- `words_to_bytes_le` (R95). -/
def wordsToBytes (ws : List Word) : List Byte := ws.flatMap wordBytes

/-- `byte(X, k)`, for 0 <= k <= 63: byte `k mod 4` of word `k div 4` (40_padding.md R63). -/
def blockByte (m : Block) (k : Nat) : Byte := byteOf (m.toList.getD (k / 4) 0) (k % 4)

/-- The block whose byte `k` is `f k`: `bytes_to_words_le` of a 64-byte array (R63, R94). -/
def blockOfBytes (f : Nat → Byte) : Block :=
  Vector.ofFn fun i : Fin 16 => le32 (f (4 * i.val)) (f (4 * i.val + 1)) (f (4 * i.val + 2)) (f (4 * i.val + 3))

/-- The digest of a chaining state: 20 bytes (R97). -/
def digestOf (h : Chain) : List Byte := wordsToBytes h.toList

end Sys2Proof.Machine
end

