-- ==== Sys2Proof/Machine/Padding.lean ====
section
/-!
DEFINITION. The block formatter `fmt` (40_padding.md R63) and the length words (R60).
-/

namespace Sys2Proof.Machine

/-- The low length word of a message of `len` bytes: `(L << 3) mod 2^32` (R60). -/
def lengthLo (len : Nat) : Word := BitVec.ofNat 32 (len * 2 ^ 3)

/-- The high length word: `L >> 29` (R60; 90_conflicts.md C2; notes/assumptions 17). -/
def lengthHi (len : Nat) : Word := BitVec.ofNat 32 (len / 2 ^ 29)

/-- Byte `k`, 0 <= k <= 7, of `words_to_bytes_le([lo, hi])` (R60, R63). -/
def lengthByte (len k : Nat) : Byte :=
  if k < 4 then byteOf (lengthLo len) k else byteOf (lengthHi len) (k - 4)

/-- Whether a tail of `r` bytes takes two trailer blocks (R63: r >= 56). -/
def tailNeedsTwo (r : Nat) : Bool := decide (56 ≤ r)

/-- The message length `L = 64q + r` (R63). -/
def messageLength (q r : Nat) : Nat := 64 * q + r

/-- The tail, the byte 0x80 and zeros: byte `k` of P before the length field (R63). -/
def tailByte (r : Nat) (m : Block) (k : Nat) : Byte :=
  if k < r then blockByte m k else if k = r then 0x80 else 0x00

/-- Byte `k` of the first trailer block P (R63). -/
def firstByte (q r : Nat) (m : Block) (k : Nat) : Byte :=
  if tailNeedsTwo r = false ∧ 56 ≤ k then lengthByte (messageLength q r) (k - 56) else tailByte r m k

/-- Byte `k` of the second trailer block Q (R63). -/
def secondByte (q r : Nat) (k : Nat) : Byte :=
  if tailNeedsTwo r = true ∧ 56 ≤ k then lengthByte (messageLength q r) (k - 56) else 0x00

/-- X' of `fmt(q, r, X)` (R63). -/
def fmtFirst (q r : Nat) (m : Block) : Block := blockOfBytes (firstByte q r m)

/-- Y' of `fmt(q, r, X)` (R63). -/
def fmtSecond (q r : Nat) : Block := blockOfBytes (secondByte q r)

end Sys2Proof.Machine
end

