-- ==== Sys2Proof/Machine/Ops.lean ====
section
/-!
DEFINITION. The named operations every command and transaction is built from: rejecting (the core's only exception) and
acknowledging, issue checks, accepting, finishing, compressing, formatting, free values, and the turn of the agents.
-/

namespace Sys2Proof.Machine

/-! ### Rejections: the core's one exception, and the way back from it -/

/-- `raise CmdError(code)`: ERR and ERRCODE, and no other effect (60_exceptions.md R101, R108). -/
def State.cmdError (s : State) (c : CmdError) : State := { s with status := s.status.reject c }

/-- A STATUS write: the host's acknowledgement of an error when bit 1 is set (R109, 10_state.md R21). -/
def State.writeStatus (s : State) (w : Word) : State := { s with status := s.status.write w }

/-! ### Issue (42_driver.md R84) -/

/-- The largest BLKCNT before FINAL, `2^26 - 1` full blocks (R105). -/
def maxMessageBlocks : Nat := 2 ^ 26 - 1

/-- First check: a command issued while BUSY is rejected (R84, R103). -/
def unlessBusy (s : State) (go : Result) : Result :=
  if s.status.busy then .next (s.cmdError .busy) else go

/-- COMPRESS, FINAL and FORMAT after a finished hash are rejected (R84, R104). -/
def unlessDone (s : State) (go : Result) : Result :=
  if s.status.done then .next (s.cmdError .sequence) else go

/-- COMPRESS of the block that would pass the length limit is rejected (R84, R105). -/
def unlessFull (s : State) (go : Result) : Result :=
  if s.blkcnt.toNat = maxMessageBlocks then .next (s.cmdError .inputTooLarge) else go

/-- `PEND <- (op, r); STATUS.BUSY <- 1` (R84). The latency of the command is drawn here (R85; notes/assumptions 4). -/
def State.accept (s : State) (i : Instr) : State :=
  { s with
    pend := some i
    status := s.status.setBusy true
    delay := Config.freeLatency s.draws
    draws := s.draws + 1 }

/-! ### Completion (R85) -/

/-- `PEND <- none; STATUS.BUSY <- 0` (R85). -/
def State.finish (s : State) : State := { s with pend := none, status := s.status.setBusy false }

/-- `H <- compress(H, block)` (41_compression.md R79, R81), the working registers left as the 80 steps leave them
(R28; notes/assumptions 10). -/
def State.absorb (s : State) (block : Block) : State :=
  let w := runLines s.h block
  { s with h := w.combine, work := w }

/-- `(X', Y', p) <- fmt(BLKCNT, r, X); X <- X'; Y <- Y'; PAD2 <- p` (40_padding.md R67). -/
def State.formatTail (s : State) (r : Nat) : State :=
  { s with
    x := fmtFirst s.blkcnt.toNat r s.x
    y := fmtSecond s.blkcnt.toNat r
    status := s.status.setPad2 (tailNeedsTwo r) }

/-- `BLKCNT <- BLKCNT + n` (R26). -/
def State.countBlocks (s : State) (n : Word) : State := { s with blkcnt := s.blkcnt + n }

/-- The completion of INIT: `H <- IV; BLKCNT <- 0; DONE <- 0; PAD2 <- 0` (R87). -/
def State.startHash (s : State) : State :=
  { s with h := iv, blkcnt := 0, status := (s.status.setDone false).setPad2 false }

/-- A finished hash: `DONE <- 1` (R89). -/
def State.endHash (s : State) : State := { s with status := s.status.setDone true }

/-! ### Free values (20_memory.md R40) -/

/-- A fresh free value of `n` bytes, the first that has not been taken (notes/assumptions 3). -/
def State.drawn (s : State) (n : Nat) : Word :=
  BitVec.ofNat 32 ((Config.freeWord s.draws).toNat % 2 ^ (8 * n))

/-- One free value has been taken. -/
def State.afterDraw (s : State) : State := { s with draws := s.draws + 1 }

/-! ### The host's side -/

/-- The bus answers a transaction. -/
def State.answer (s : State) (a : Answer) : State := { s with answers := a :: s.answers }

/-- The host goes on with the rest of what it does. -/
def State.withInbox (s : State) (rest : List HostEvent) : State := { s with inbox := rest }

/-- A platform reset: every register as after power-on, a pending command abandoned (70_reset_and_hazards.md R118).
What the host does next and what it has been answered are not the core's (notes/assumptions 11). -/
def State.platformReset (s : State) (rest : List HostEvent) : State :=
  { State.powerOn s.draws with inbox := rest, answers := s.answers }

/-! ### The agents' turns (R13, R85; notes/assumptions 4, 5) -/

/-- Who moves after a move: the core once a pending command's latency has run out, else the host (R85). -/
def State.turnAfter (s : State) : Agent :=
  match s.pend with
  | none => .host
  | some _ => if s.delay = 0 then .core else .host

/-- What a move leaves of a pending command's latency: it counts host steps down (R85). -/
def State.delayAfter (s : State) : Nat :=
  match s.pend with
  | none => s.delay
  | some _ => s.delay - 1

/-- After a move: with no command pending the host moves; with one pending the core moves once the command's latency
has run out, and the host until then. -/
def State.handOver (s : State) : State := { s with turn := s.turnAfter, delay := s.delayAfter }

/-- A move ends and the turn is handed over. -/
def afterMove : Result → Result
  | .next s => .next s.handOver
  | .fault r => .fault r
  | .refused r => .refused r

/-! ### Where the window is (R32; notes/assumptions 7) -/

/-- The host address of a window offset (00_scope.md R8). -/
def hostAddress (off : BitVec 8) : Nat := Config.base + off.toNat

/-- The offset the core decodes of a host address, or none for an address outside the window (R32, R43). -/
def windowOffset (addr : Nat) : Option (BitVec 8) :=
  if Config.base ≤ addr ∧ addr ≤ Config.base + 0xFF then some (BitVec.ofNat 8 (addr - Config.base)) else none

end Sys2Proof.Machine
end

