-- ==== Sys2Proof/Machine/Bus.lean ====
section
/-!
DEFINITION. Host transactions on the window (20_memory.md R38), and what the agent whose turn it is does.
-/

namespace Sys2Proof.Machine

/-- The data of an allowed read of `n` bytes at `off` that needs no free value (R38). -/
def readData (s : State) (off n : Nat) : Word :=
  match regionOf off with
  | .cmd => 0
  | .status => s.status.word
  | .blkcnt => s.blkcnt
  | .h => BitVec.ofNat 32 (readValue s off n)
  | .x => BitVec.ofNat 32 (readValue s off n)
  | .y => BitVec.ofNat 32 (readValue s off n)
  | .reserved => 0

/-- The regions whose reads while BUSY return an unspecified value (R40). -/
def Region.unsettledWhileBusy : Region → Bool
  | .cmd => false
  | .status => false
  | .blkcnt => true
  | .h => true
  | .x => true
  | .y => true
  | .reserved => false

/-- A read of STATUS, exact even while BUSY; a reserved ERRCODE is a found bug (R21, R102; notes/assumptions 9). -/
def readStatus (s : State) : Result :=
  if s.status.reserved then .fault .reservedErrCode else .next (s.answer (.data s.status.word))

/-- `MemRead(BASE + off, n)` (R38). -/
def memRead (off : BitVec 8) (n : Nat) (s : State) : Result :=
  if allowed off.toNat n .read then
    if regionOf off.toNat = .status then readStatus s
    else if s.status.busy && (regionOf off.toNat).unsettledWhileBusy then
      .next ((s.answer (.data (s.drawn n))).afterDraw)
    else .next (s.answer (.data (readData s off.toNat n)))
  else .next (s.answer (.busError off))

/-- A write of `n` bytes to the H or X window: discarded with BUSY while a command is pending (R38, R103). -/
def writeWindow (off n : Nat) (v : Word) (s : State) : Result :=
  if s.status.busy then .next (s.cmdError .busy) else .next (writeBytes v off 0 n s)

/-- A 4-byte write of `w` to CMD: a command runs, an illegal word is rejected, BUSY being checked before the decoding
shows (42_driver.md R84, 30_encoding.md R54). -/
def writeCmd (w : Word) (s : State) : Move :=
  match decode w with
  | .command i => .run i s
  | .illegal _ => .done (unlessBusy s (.next (s.cmdError .illegalCmd)))

/-- `MemWrite(BASE + off, n, v)` (R38). An allowed write is answered normally even when the core refuses what it
carries (R99). -/
def memWrite (off : BitVec 8) (n : Nat) (v : Word) (s : State) : Move :=
  if allowed off.toNat n .write then
    match regionOf off.toNat with
    | .cmd => writeCmd v (s.answer .ok)
    | .status => .done (.next ((s.answer .ok).writeStatus v))
    | .blkcnt => .done (.next (s.answer (.busError off)))
    | .h => .done (writeWindow off.toNat n v (s.answer .ok))
    | .x => .done (writeWindow off.toNat n v (s.answer .ok))
    | .y => .done (.next (s.answer (.busError off)))
    | .reserved => .done (.next (s.answer (.busError off)))
  else .done (.next (s.answer (.busError off)))

/-- One round of the polling loop `wait`: `lw 0x04`, and again while bit 0 is 1 (R57; notes/assumptions 20). -/
def pollStatus (rest : List HostEvent) (s : State) : Result :=
  readStatus (s.withInbox (if s.status.busy then .wait :: rest else rest))

/-- What the host does in its turn; with nothing to do it lets the turn pass (notes/assumptions 18). -/
def hostMove (s : State) : Move :=
  match s.inbox with
  | [] => .done (.next s)
  | .read off n :: rest => .done (memRead off n (s.withInbox rest))
  | .write off n v :: rest => memWrite off n v (s.withInbox rest)
  | .wait :: rest => .done (pollStatus rest s)
  | .reset :: rest => .done (.next (s.platformReset rest))

/-- What the agent whose turn it is does: the core completes the pending command, and where there is none, or the
turn is the host's, the host moves (R13, R85). -/
def nextMove (s : State) : Move :=
  match s.turn, s.pend with
  | .core, some i => .run i s
  | .core, none => hostMove { s with turn := .host }
  | .host, _ => hostMove s

end Sys2Proof.Machine
end

