-- ==== Sys2Proof/Machine/Driver.lean ====
section
/-!
DEFINITION. The chunk driver's commands NOP, INIT, COMPRESS and FINAL (42_driver.md R86 to R89). A meaning has two
cases: in the host's turn it is the issue (R84), in the core's turn the completion (R85).
-/

namespace Sys2Proof.Machine

/-- NOP (R86): it returns at issue and is never pending. -/
def execNop (s : State) : Result :=
  match s.turn with
  | .host => unlessBusy s (.next s)
  | .core => .next s.finish

/-- INIT (R87). -/
def execInit (s : State) : Result :=
  match s.turn with
  | .host => unlessBusy s (.next (s.accept .init))
  | .core => .next s.startHash.finish

/-- COMPRESS (R88). -/
def execCompress (s : State) : Result :=
  match s.turn with
  | .host => unlessBusy s (unlessDone s (unlessFull s (.next (s.accept .compress))))
  | .core => .next ((s.absorb s.x).countBlocks 1).finish

/-- The compressions of FINAL: the first trailer block, then the second one when PAD2 = 1 (R89). -/
def State.absorbTrailer (s : State) : State :=
  if s.status.pad2 then (s.absorb s.x).absorb s.y else s.absorb s.x

/-- FINAL r (R89). -/
def execFinal (r : Nat) (s : State) : Result :=
  match s.turn with
  | .host => unlessBusy s (unlessDone s (.next (s.accept (.final r))))
  | .core =>
    .next (((s.formatTail r).absorbTrailer).countBlocks (if tailNeedsTwo r then 2 else 1)).endHash.finish

end Sys2Proof.Machine
end

