-- ==== Sys2Proof/Machine/Formatter.lean ====
section
/-!
DEFINITION. The formatter's command FORMAT (40_padding.md R67).
-/

namespace Sys2Proof.Machine

/-- FORMAT r (R67): the issue in the host's turn, the completion in the core's. -/
def execFormat (r : Nat) (s : State) : Result :=
  match s.turn with
  | .host => unlessBusy s (unlessDone s (.next (s.accept (.format r))))
  | .core => .next (s.formatTail r).finish

end Sys2Proof.Machine
end

