-- ==== Sys2Proof/Machine/Rawcomp.lean ====
section
/-!
DEFINITION. The bare compression command RAWCOMP (41_compression.md R82).
-/

namespace Sys2Proof.Machine

/-- RAWCOMP (R82): the issue in the host's turn, the completion in the core's. DONE does not block it. -/
def execRawcomp (s : State) : Result :=
  match s.turn with
  | .host => unlessBusy s (.next (s.accept .rawcomp))
  | .core => .next (s.absorb s.x).finish

end Sys2Proof.Machine
end

