-- ==== Sys2Proof/Machine/Dispatch.lean ====
section
/-!
DEFINITION. One arm per command (30_encoding.md R52).
-/

namespace Sys2Proof.Machine

def exec (i : Instr) (s : State) : Host.Outcome State Fault Refusal :=
  match i with
  | .nop => Sys2Proof.Machine.execNop s
  | .init => Sys2Proof.Machine.execInit s
  | .compress => Sys2Proof.Machine.execCompress s
  | .final r => Sys2Proof.Machine.execFinal r s
  | .format r => Sys2Proof.Machine.execFormat r s
  | .rawcomp => Sys2Proof.Machine.execRawcomp s

end Sys2Proof.Machine
end

