-- ==== Sys2Proof/Machine/Step.lean ====
section
/-!
DEFINITION. One step of the machine: the agent whose turn it is moves (10_state.md R13), then the turn is handed over.
-/

namespace Sys2Proof.Machine

/-- One step: a bus transaction of the host or a completion of the core. -/
def step (s : State) : Host.Outcome State Fault Refusal :=
  match nextMove s with
  | .run i t => afterMove (exec i t)
  | .done o => afterMove o

/-- `s` with the host about to write the command word `w` to CMD in the very next step. -/
def State.withFetchWord (s : State) (nbits w : Nat) : State :=
  { s with turn := .host, inbox := .write 0x00 4 (BitVec.ofNat 32 (w % 2 ^ nbits)) :: s.inbox }

end Sys2Proof.Machine
end

