-- ==== Sys2Proof/Machine/Reference.lean ====
section
/-!
DEFINITION. The reference functions the core is held to: `pad` (40_padding.md R58 to R61) and `hash` (42_driver.md R90).
The machine's own meanings do not use them.
-/

namespace Sys2Proof.Machine

/-- The number of zero bytes: the least `z` with `L + 1 + z ≡ 56 (mod 64)` (R59). -/
def zeroCount (len : Nat) : Nat := (55 + 63 * len) % 64

/-- Steps 2 to 4 of R58: the padded bytes. -/
def paddedBytes (m : List Byte) : List Byte :=
  m ++ 0x80 :: List.replicate (zeroCount m.length) 0x00
    ++ wordsToBytes [lengthLo m.length, lengthHi m.length]

/-- Block `i` of a byte sequence (R58 step 5). -/
def blockAt (bytes : List Byte) (i : Nat) : Block := blockOfBytes fun k => bytes.getD (64 * i + k) 0

/-- The block count `n = buffer_bytes / 64` (R58 step 5). -/
def blockCount (m : List Byte) : Nat := (paddedBytes m).length / 64

/-- The blocks of `pad(m)` (R58). -/
def pad (m : List Byte) : List Block := (List.range (blockCount m)).map (blockAt (paddedBytes m))

/-- The state after compressing a list of blocks in order from a state (R81, R90). -/
def compressAll (h : Chain) (blocks : List Block) : Chain := blocks.foldl compress h

/-- `hash(m)` (R90). -/
def hash (m : List Byte) : List Byte := digestOf (compressAll iv (pad m))

end Sys2Proof.Machine
end

