-- ==== Sys2Proof/Safety.lean ====
section
/-!
DEFINITION. What counts as a legal state of the core (`State.Inv`), and as a clean end of a host program
(70_reset_and_hazards.md R128), in the terms the statements use.
-/

namespace Sys2Proof.Machine

/-- A pending command agrees with STATUS and BLKCNT: it is a well-formed command other than NOP that was accepted
under the checks of 42_driver.md R84, which nothing has undone since (R85). -/
def pendingLegal (i : Instr) (done : Bool) (blkcnt : Nat) : Prop :=
  i.wellFormed = true ∧ i.isPendable = true ∧
  match i with
  | .nop => True
  | .init => True
  | .compress => done = false ∧ blkcnt < maxMessageBlocks
  | .final _ => done = false
  | .format _ => done = false
  | .rawcomp => True

/-- The invariant of the core: what is true of the state after reset and after every step.
* BUSY = 1 if and only if PEND is not none (10_state.md R27), and a pending command is legal.
* ERR = 1 if and only if ERRCODE is not NONE (R25), and ERRCODE is one of 0..4 (60_exceptions.md R102).
* BLKCNT is at most `2^26 - 1` before FINAL and at most `2^26 + 1` at all (R26).
* The core has the turn only while a command is pending (R85; the field is the model's own, notes/assumptions 5).
* The step counter lies in 0..80: R28 says so of a completion step; between completions and after a reset it is the
  model's choice (notes/assumptions 10). -/
structure State.Inv (s : State) : Prop where
  busy_iff : s.status.busy = s.pend.isSome
  pend_legal : ∀ i, s.pend = some i → pendingLegal i s.status.done s.blkcnt.toNat
  err_iff : s.status.err = true ↔ s.status.errCode ≠ 0
  code_le : s.status.errCode.toNat ≤ 4
  count_open : s.status.done = false → s.blkcnt.toNat ≤ maxMessageBlocks
  count_le : s.blkcnt.toNat ≤ 2 ^ 26 + 1
  core_turn : s.turn = .core → s.pend.isSome = true
  counter_le : s.work.j ≤ 80

/-- The core's completion of command `i` is the next step (R85). -/
def State.coreRuns (s : State) (i : Instr) : Prop := s.turn = .core ∧ s.pend = some i

/-- The host's event `e` is the next step: it is the host's turn, or no command is pending (R13). -/
def State.hostDoes (s : State) (e : HostEvent) : Prop :=
  (s.turn = .host ∨ s.pend = none) ∧ s.inbox.head? = some e

/-- The state with the host's next event taken from what it has to do, in the host's turn. -/
def State.hostActs (s : State) : State := { s with turn := .host, inbox := s.inbox.tail }

/-- The state after the host's next event has been taken and answered, before it acts. -/
def State.taken (s : State) (a : Answer) : State :=
  { s with turn := .host, inbox := s.inbox.tail, answers := a :: s.answers }

/-- The next state is `u`, but for what is the model's own: who moves next, the latency and the count of free values
taken (notes/assumptions 2, 4, 5). -/
def State.stepsTo (s u : State) : Prop :=
  ∃ (a : Agent) (d n : Nat), step s = .next { u with turn := a, delay := d, draws := n }

/-- The registers of 10_state.md R14 that the host can see, and PEND. -/
def State.sameRegisters (s t : State) : Prop :=
  t.h = s.h ∧ t.x = s.x ∧ t.y = s.y ∧ t.status = s.status ∧ t.blkcnt = s.blkcnt ∧ t.pend = s.pend

/-- A host program has ended: its last transaction has been performed and no command is pending (R128). -/
def State.ended (s : State) : Prop := s.inbox = [] ∧ s.pend = none

/-- The bus has answered no transaction with an error response (R128, R100). DESIGN CHOICE: the spec does not say when a
host program starts; every answer since power-on counts, across platform resets (notes/assumptions 21). -/
def State.noBusError (s : State) : Prop := ∀ off, Answer.busError off ∉ s.answers

/-- The premises of a claim that a program computed a hash, and the state it is read in (R128). The program is taken to
have run since power-on (DESIGN CHOICE, notes/assumptions 21). -/
structure State.CleanEnd (s : State) : Prop where
  ended : s.ended
  noBusError : s.noBusError
  err_clear : s.status.err = false
  done_set : s.status.done = true

/-- The observation of a hash program: the digest bytes, DONE, ERR and BLKCNT (R128, R97). -/
def State.observe (s : State) : List Byte × Bool × Bool × Word :=
  (digestOf s.h, s.status.done, s.status.err, s.blkcnt)

end Sys2Proof.Machine
end

