-- ==== Sys2Proof/Certificates/Slice0/Obligations.lean ====
section
/-!
DEFINITION. The statements for the provers. Every effect is written out with the values of the spec; a record update
`{ s with … }` says at once what changes and that nothing else does. Where a statement says `stepsTo`, or has `∃ d n` or
`∃ w`, it leaves free what is the model's own: who moves next, the latency, the count of free values taken, and the
hidden working registers (notes/assumptions 2, 4, 5, 10).
-/

open Sys2Proof Sys2Proof.Machine

/-! ### Commands and their words (30_encoding.md) -/

/-- R50, R51, R53, R55: decoding the word of any well-formed command gives that command back. -/
def Obligations.DecodeOfEncode : Prop :=
  ∀ i : Instr, i.wellFormed = true → decode (encode i) = .command i

/-- R50, R53, R55: a word that decodes to a command is that command's own word, and the command is well formed. -/
def Obligations.EncodeOfDecode : Prop :=
  ∀ (w : Word) (i : Instr), decode w = .command i → i.wellFormed = true ∧ encode i = w

/-- R53: the decoder's cases, field by field; it agrees with matching the rows of the opcode table; at most one row
matches a word; a word that matches none is Illegal. -/
def Obligations.DecoderMatchesOpcodeTable : Prop :=
  ∀ w : Word,
    (∀ i : Instr, decode w = .command i ↔
      w.extractLsb 31 14 = 0 ∧ w.extractLsb 7 4 = 0 ∧
      ((w.extractLsb 3 0 = 3 ∧ i = .final (w.extractLsb 13 8).toNat) ∨
       (w.extractLsb 3 0 = 4 ∧ i = .format (w.extractLsb 13 8).toNat) ∨
       (w.extractLsb 13 8 = 0 ∧
         ((w.extractLsb 3 0 = 0 ∧ i = .nop) ∨ (w.extractLsb 3 0 = 1 ∧ i = .init) ∨
          (w.extractLsb 3 0 = 2 ∧ i = .compress) ∨ (w.extractLsb 3 0 = 5 ∧ i = .rawcomp))))) ∧
    (∀ mnemonic : String,
      (∃ row ∈ opcodeTable, row.mnemonic = mnemonic ∧ w &&& row.mask = row.pattern) ↔
      (∃ i : Instr, decode w = .command i ∧ i.mnemonic = mnemonic)) ∧
    (opcodeTable.filter fun row => w &&& row.mask = row.pattern).length ≤ 1 ∧
    ((∀ row ∈ opcodeTable, w &&& row.mask ≠ row.pattern) → ∃ why, decode w = .illegal why)

/-- R54: a word is Illegal when a reserved bit is set, OP is 0x6..0xF, or TAIL is not zero for an opcode that takes no
tail; writing it to CMD while the core is idle sets ERR and ERRCODE = ILLEGAL_CMD and has no other effect. -/
def Obligations.IllegalWordIsRejected : Prop :=
  ∀ w : Word,
    ((∃ why, decode w = .illegal why) ↔
      w.extractLsb 31 14 ≠ 0 ∨ w.extractLsb 7 4 ≠ 0 ∨ 6 ≤ (w.extractLsb 3 0).toNat ∨
      (w.extractLsb 13 8 ≠ 0 ∧ w.extractLsb 3 0 ≠ 3 ∧ w.extractLsb 3 0 ≠ 4)) ∧
    ∀ s : State, s.hostDoes (.write 0x00 4 w) → s.status.busy = false → (∃ why, decode w = .illegal why) →
      s.stepsTo { s.taken .ok with status := { s.status with err := true, errCode := 1 } }

/-- R55: some of the spec's command words and of its illegal examples. -/
def Obligations.CommandWordsDecode : Prop :=
  decode 0x00000000 = .command .nop ∧ decode 0x00000001 = .command .init ∧
  decode 0x00000002 = .command .compress ∧ decode 0x00000303 = .command (.final 3) ∧
  decode 0x00003E03 = .command (.final 62) ∧ decode 0x00003804 = .command (.format 56) ∧
  decode 0x00000005 = .command .rawcomp ∧ decode 0x00000006 = .illegal .reservedOpcode ∧
  decode 0x00000101 = .illegal .tailNotTaken ∧ decode 0x00000013 = .illegal .rsv0Set ∧
  decode 0x00004003 = .illegal .rsv1Set ∧ decode 0xFFFFFFFF = .illegal .rsv1Set

/-! ### Steps -/

/-- R38, R84: when the host's next event writes to CMD a word that decodes to `i`, the step is `exec i` on the state with the
event taken and answered normally, and then the turn is handed over (the model's choice, log entries 4, 5). -/
def Obligations.StepRunsDecodedCommand : Prop :=
  ∀ (s : State) (w : Word) (i : Instr), s.hostDoes (.write 0x00 4 w) → decode w = .command i →
    step s = afterMove (exec i (s.taken .ok))

/-- R85: in the core's turn the step is `exec` of the pending command, and then the turn is handed over (the model's
choice, log entries 4, 5). -/
def Obligations.StepRunsPendingCommand : Prop :=
  ∀ (s : State) (i : Instr), s.coreRuns i → step s = afterMove (exec i s)

/-- R84: a 4-byte write to CMD, the checks in the order written, the first that fails deciding the outcome; the bus
transaction is answered normally. -/
def Obligations.IssueChecksInOrder : Prop :=
  ∀ (s : State) (w : Word), s.hostDoes (.write 0x00 4 w) →
    s.stepsTo (
      if s.status.busy then
        { s.taken .ok with status := { s.status with err := true, errCode := 2 } }
      else
        match decode w with
        | .illegal _ => { s.taken .ok with status := { s.status with err := true, errCode := 1 } }
        | .command i =>
          if i = .nop then s.taken .ok
          else if (i.opcode = 0x2 ∨ i.opcode = 0x3 ∨ i.opcode = 0x4) ∧ s.status.done = true then
            { s.taken .ok with status := { s.status with err := true, errCode := 3 } }
          else if i = .compress ∧ s.blkcnt.toNat = 2 ^ 26 - 1 then
            { s.taken .ok with status := { s.status with err := true, errCode := 4 } }
          else
            { s.taken .ok with pend := some i, status := { s.status with busy := true } })

/-! ### What each command does: issue in the host's turn, completion in the core's -/

/-- R86: NOP changes nothing when idle; while busy it is rejected with BUSY; a word with OP = 0 and any other bit set
is Illegal. -/
def Obligations.NopDoesNothing : Prop :=
  decode 0x00000000 = .command .nop ∧
  (∀ w : Word, w.extractLsb 3 0 = 0 → w ≠ 0 → ∃ why, decode w = .illegal why) ∧
  (∀ (w : Word) (s : State), w.extractLsb 3 0 = 0 → w ≠ 0 → s.status.busy = false →
    writeCmd w s = .done (.next { s with status := { s.status with err := true, errCode := 1 } })) ∧
  ∀ s : State, s.turn = .host →
    (s.status.busy = false → exec .nop s = .next s) ∧
    (s.status.busy = true →
      exec .nop s = .next { s with status := { s.status with err := true, errCode := 2 } })

/-- R87: INIT is accepted whatever DONE and BLKCNT are; its completion loads the IV, clears BLKCNT, DONE, PAD2 and
BUSY, and changes nothing else. -/
def Obligations.InitLoadsIv : Prop :=
  decode 0x00000001 = .command .init ∧
  ∀ s : State,
    (s.turn = .host → s.status.busy = true →
      exec .init s = .next { s with status := { s.status with err := true, errCode := 2 } }) ∧
    (s.turn = .host → s.status.busy = false →
      ∃ d n, exec .init s = .next { s with
        pend := some .init, status := { s.status with busy := true },
        delay := d, draws := n }) ∧
    (s.turn = .core →
      exec .init s = .next { s with
        h := #v[0x67452301, 0xEFCDAB89, 0x98BADCFE, 0x10325476, 0xC3D2E1F0], blkcnt := 0, pend := none,
        status := { s.status with done := false, pad2 := false, busy := false } })

/-- R88: COMPRESS; its completion replaces H by the compression of X, adds 1 to BLKCNT, clears BUSY, and changes nothing
else but the hidden working registers. -/
def Obligations.CompressAbsorbsBlock : Prop :=
  decode 0x00000002 = .command .compress ∧
  ∀ s : State,
    (s.turn = .host → s.status.busy = true →
      exec .compress s = .next { s with status := { s.status with err := true, errCode := 2 } }) ∧
    (s.turn = .host → s.status.busy = false → s.status.done = true →
      exec .compress s = .next { s with status := { s.status with err := true, errCode := 3 } }) ∧
    (s.turn = .host → s.status.busy = false → s.status.done = false → s.blkcnt.toNat = 2 ^ 26 - 1 →
      exec .compress s = .next { s with status := { s.status with err := true, errCode := 4 } }) ∧
    (s.turn = .host → s.status.busy = false → s.status.done = false → s.blkcnt.toNat ≠ 2 ^ 26 - 1 →
      ∃ d n, exec .compress s = .next { s with
        pend := some .compress, status := { s.status with busy := true },
        delay := d, draws := n }) ∧
    (s.turn = .core →
      ∃ w, exec .compress s = .next { s with
        h := compress s.h s.x, work := w, blkcnt := s.blkcnt + 1, pend := none,
        status := { s.status with busy := false } })

/-- R89: FINAL r; its completion formats the tail, compresses the one or two trailer blocks, adds their number to BLKCNT,
sets DONE and PAD2, clears BUSY, and changes nothing else but the hidden working registers. -/
def Obligations.FinalPadsAndCompresses : Prop :=
  ∀ (r : Nat) (s : State), r ≤ 63 →
    decode (BitVec.ofNat 32 (0x00000003 + r * 2 ^ 8)) = .command (.final r) ∧
    (s.turn = .host → s.status.busy = true →
      exec (.final r) s = .next { s with status := { s.status with err := true, errCode := 2 } }) ∧
    (s.turn = .host → s.status.busy = false → s.status.done = true →
      exec (.final r) s = .next { s with status := { s.status with err := true, errCode := 3 } }) ∧
    (s.turn = .host → s.status.busy = false → s.status.done = false →
      ∃ d n, exec (.final r) s = .next { s with
        pend := some (.final r), status := { s.status with busy := true },
        delay := d, draws := n }) ∧
    (s.turn = .core → r ≤ 55 →
      ∃ w, exec (.final r) s = .next { s with
        x := fmtFirst s.blkcnt.toNat r s.x, y := fmtSecond s.blkcnt.toNat r,
        h := compress s.h (fmtFirst s.blkcnt.toNat r s.x),
        work := w,
        blkcnt := s.blkcnt + 1, pend := none,
        status := { s.status with pad2 := false, done := true, busy := false } }) ∧
    (s.turn = .core → 56 ≤ r →
      ∃ w, exec (.final r) s = .next { s with
        x := fmtFirst s.blkcnt.toNat r s.x, y := fmtSecond s.blkcnt.toNat r,
        h := compress (compress s.h (fmtFirst s.blkcnt.toNat r s.x)) (fmtSecond s.blkcnt.toNat r),
        work := w,
        blkcnt := s.blkcnt + 2, pend := none,
        status := { s.status with pad2 := true, done := true, busy := false } })

/-- R67: FORMAT r; its completion writes the trailer blocks to X and Y and PAD2, clears BUSY, and changes nothing
else. -/
def Obligations.FormatWritesTrailerBlocks : Prop :=
  ∀ (r : Nat) (s : State), r ≤ 63 →
    decode (BitVec.ofNat 32 (0x00000004 + r * 2 ^ 8)) = .command (.format r) ∧
    (s.turn = .host → s.status.busy = true →
      exec (.format r) s = .next { s with status := { s.status with err := true, errCode := 2 } }) ∧
    (s.turn = .host → s.status.busy = false → s.status.done = true →
      exec (.format r) s = .next { s with status := { s.status with err := true, errCode := 3 } }) ∧
    (s.turn = .host → s.status.busy = false → s.status.done = false →
      ∃ d n, exec (.format r) s = .next { s with
        pend := some (.format r), status := { s.status with busy := true },
        delay := d, draws := n }) ∧
    (s.turn = .core →
      exec (.format r) s = .next { s with
        x := fmtFirst s.blkcnt.toNat r s.x, y := fmtSecond s.blkcnt.toNat r, pend := none,
        status := { s.status with pad2 := decide (56 ≤ r), busy := false } })

/-- R82: RAWCOMP; DONE does not block it; its completion replaces H by the compression of X, clears BUSY, and changes
nothing else but the hidden working registers. -/
def Obligations.RawcompCompresses : Prop :=
  decode 0x00000005 = .command .rawcomp ∧
  ∀ s : State,
    (s.turn = .host → s.status.busy = true →
      exec .rawcomp s = .next { s with status := { s.status with err := true, errCode := 2 } }) ∧
    (s.turn = .host → s.status.busy = false →
      ∃ d n, exec .rawcomp s = .next { s with
        pend := some .rawcomp, status := { s.status with busy := true },
        delay := d, draws := n }) ∧
    (s.turn = .core →
      ∃ w, exec .rawcomp s = .next { s with
        h := compress s.h s.x, work := w, pend := none,
        status := { s.status with busy := false } })

/-- R101, R84: what any command can do in the host's turn: nothing (NOP), a rejection that changes ERR and ERRCODE alone,
or the acceptance that sets PEND and BUSY. The acceptance also draws the latency (the model's choice, log entries 2, 4). -/
def Obligations.IssueOnlyRejectsOrAccepts : Prop :=
  ∀ (i : Instr) (s t : State), s.turn = .host → exec i s = .next t →
    (i = .nop ∧ t = s) ∨
    (∃ code : BitVec 4, (code = 2 ∨ code = 3 ∨ code = 4) ∧
      t = { s with status := { s.status with err := true, errCode := code } }) ∨
    (s.status.busy = false ∧ i ≠ .nop ∧
      t = { s with
        pend := some i, status := { s.status with busy := true },
        delay := Config.freeLatency s.draws, draws := s.draws + 1 })

/-- R104: after a finished hash COMPRESS, FINAL and FORMAT are rejected with SEQUENCE; NOP, INIT and RAWCOMP answer as
they do without DONE. -/
def Obligations.SequenceAfterDone : Prop :=
  ∀ s : State, s.turn = .host → s.status.busy = false → s.status.done = true →
    (∀ i : Instr, (i = .compress ∨ (∃ r, i = .final r) ∨ (∃ r, i = .format r)) →
      exec i s = .next { s with status := { s.status with err := true, errCode := 3 } }) ∧
    (∀ i : Instr, (i = .init ∨ i = .rawcomp) →
      ∃ d n, exec i s = .next { s with
        pend := some i, status := { s.status with busy := true },
        delay := d, draws := n }) ∧
    exec .nop s = .next s

/-- R105: at the limit COMPRESS is refused with INPUT_TOO_LARGE and BLKCNT stays, FINAL and INIT are accepted; and in
every legal state a pending FINAL or FORMAT has a length that fits: `64q + r <= 2^32 - 1`. -/
def Obligations.InputTooLargeIsRefused : Prop :=
  (∀ s : State, s.turn = .host → s.status.busy = false → s.status.done = false → s.blkcnt.toNat = 2 ^ 26 - 1 →
    exec .compress s = .next { s with status := { s.status with err := true, errCode := 4 } } ∧
    ∀ i : Instr, (i = .init ∨ ∃ r, r ≤ 63 ∧ i = .final r) →
      ∃ d n, exec i s = .next { s with
        pend := some i, status := { s.status with busy := true }, delay := d, draws := n }) ∧
  (∀ (s : State) (r : Nat), s.Inv → s.pend = some (.final r) ∨ s.pend = some (.format r) →
    64 * s.blkcnt.toNat + r ≤ 2 ^ 32 - 1)

/-! ### Compression core (41_compression.md) -/

/-- The truth tables of R68, one list entry for each row x y z from 0 0 0 to 1 1 1. -/
def truthF : List Bool := [false, true, true, false, true, false, false, true]
def truthG : List Bool := [false, true, false, true, false, false, true, true]
def truthH : List Bool := [true, false, false, true, true, false, true, false]
def truthI : List Bool := [false, false, true, false, false, true, true, true]
def truthJ : List Bool := [true, false, true, true, false, true, false, false]

/-- The row of a truth table for three bits. -/
def truthRow (x y z : Bool) : Nat := 4 * x.toNat + 2 * y.toNat + z.toNat

/-- R68: each function is bitwise, bit by bit as its truth table says. -/
def Obligations.BooleanFunctionsBitwise : Prop :=
  ∀ (x y z : Word) (i : Nat), i < 32 →
    let row := truthRow (x.getLsbD i) (y.getLsbD i) (z.getLsbD i)
    truthF[row]? = some ((boolF x y z).getLsbD i) ∧
    truthG[row]? = some ((boolG x y z).getLsbD i) ∧
    truthH[row]? = some ((boolH x y z).getLsbD i) ∧
    truthI[row]? = some ((boolI x y z).getLsbD i) ∧
    truthJ[row]? = some ((boolJ x y z).getLsbD i)

/-- R69, R70: functions and constants of both lines, step by step. -/
def Obligations.RoundFunctionsAndConstants : Prop :=
  ∀ j : Nat, j < 80 →
    (fL (roundOf j), kL (roundOf j)) =
      (if j < 16 then (boolF, 0x00000000) else if j < 32 then (boolG, 0x5A827999)
       else if j < 48 then (boolH, 0x6ED9EBA1) else if j < 64 then (boolI, 0x8F1BBCDC)
       else (boolJ, 0xA953FD4E)) ∧
    (fR (roundOf j), kR (roundOf j)) =
      (if j < 16 then (boolJ, 0x50A28BE6) else if j < 32 then (boolI, 0x5C4DD124)
       else if j < 48 then (boolH, 0x6D703EF3) else if j < 64 then (boolG, 0x7A6D76E9)
       else (boolF, 0x00000000))

/-- R71 to R74: each row of the word orders names every word once, and every rotate amount lies in 5..15 (a sanity check of
tables the spec itself supplies, log entry 16). -/
def Obligations.ScheduleTablesWellFormed : Prop :=
  (∀ ρ : Fin 5, ∀ w : Fin 16, (∃ k : Fin 16, wL (16 * ρ.val + k.val) = w) ∧
    (∃ k : Fin 16, wR (16 * ρ.val + k.val) = w)) ∧
  (∀ j : Fin 80, 5 ≤ sL j.val ∧ sL j.val ≤ 15 ∧ 5 ≤ sR j.val ∧ sR j.val ≤ 15)

/-- R76, R77, R78, R79: the two lines are independent, 80 steps each, evaluated here one line after the other; the
compression is their combine, written out word by word. -/
def Obligations.CompressIsTwoLinesCombined : Prop :=
  ∀ (h : Chain) (m : Block),
    let start : Line := ⟨h[0], h[1], h[2], h[3], h[4]⟩
    let left := (List.range 80).foldl
      (fun l j => (⟨l.e, rol32 (l.a + fL (j / 16 + 1) l.b l.c l.d + m[wL j] + kL (j / 16 + 1)) (sL j) + l.e,
        l.b, rol32 l.c 10, l.d⟩ : Line)) start
    let right := (List.range 80).foldl
      (fun l j => (⟨l.e, rol32 (l.a + fR (j / 16 + 1) l.b l.c l.d + m[wR j] + kR (j / 16 + 1)) (sR j) + l.e,
        l.b, rol32 l.c 10, l.d⟩ : Line)) start
    runLines h m = { h := h, left := left, right := right, j := 80 } ∧
    compress h m = #v[h[1] + left.c + right.d, h[2] + left.d + right.e, h[3] + left.e + right.a,
      h[4] + left.a + right.b, h[0] + left.b + right.c]

/-- R10: `rol32` for amounts 1..31 moves bit `i - s (mod 32)` to bit `i`. -/
def Obligations.RotateMovesBits : Prop :=
  ∀ (x : Word) (s i : Nat), 1 ≤ s → s ≤ 31 → i < 32 →
    (rol32 x s).getLsbD i = x.getLsbD ((i + (32 - s)) % 32)

/-! ### Padding and formatter (40_padding.md) -/

/-- R60: the length words are the 64-bit little-endian encoding of `8L`, the high word in 0..7. -/
def Obligations.LengthWords : Prop :=
  ∀ len : Nat, len ≤ 2 ^ 32 - 1 →
    (lengthLo len).toNat = 8 * len % 2 ^ 32 ∧ (lengthHi len).toNat = 8 * len / 2 ^ 32 ∧
    (lengthHi len).toNat = len / 2 ^ 29 ∧ (lengthHi len).toNat ≤ 7 ∧
    (∀ k < 8, (wordsToBytes [lengthLo len, lengthHi len])[k]?.map BitVec.toNat = some (8 * len / 2 ^ (8 * k) % 2 ^ 8))

/-- R61: the number of blocks of `pad` in closed form. -/
def Obligations.PadBlockCount : Prop :=
  ∀ m : List Byte, m.length ≤ 2 ^ 32 - 1 →
    (pad m).length = (if m.length % 64 ≤ 55 then m.length / 64 + 1 else m.length / 64 + 2) ∧
    (m.length ≤ 55 → (pad m).length = 1) ∧
    (56 ≤ m.length → m.length ≤ 64 → (pad m).length = 2) ∧
    (pad m).length ≤ 2 ^ 26 + 1 ∧
    (m.length = 2 ^ 32 - 1 → (pad m).length = 2 ^ 26 + 1)

/-- R58, R59, R62: the padded bytes are the message, 0x80, the least number of zeros that reaches 56 mod 64, and the
length field; up to 55 bytes they are one block that ends in the length words. -/
def Obligations.PadShape : Prop :=
  ∀ m : List Byte, m.length ≤ 2 ^ 32 - 1 →
    ∃ z : Nat, z ≤ 63 ∧ (m.length + 1 + z) % 64 = 56 ∧ (∀ z' < z, (m.length + 1 + z') % 64 ≠ 56) ∧
      paddedBytes m = m ++ [0x80] ++ List.replicate z 0x00 ++
        wordsToBytes [BitVec.ofNat 32 (8 * m.length), BitVec.ofNat 32 (8 * m.length / 2 ^ 32)] ∧
      (m.length ≤ 55 → ∃ b : Block, pad m = [b] ∧ b[14].toNat = 8 * m.length % 2 ^ 32 ∧
        b[15].toNat = 8 * m.length / 2 ^ 32 ∧ blockByte b m.length = 0x80)

/-- R64: the formatter word by word. -/
def Obligations.FormatterWordByWord : Prop :=
  ∀ (q r : Nat) (m : Block), q ≤ 2 ^ 26 - 1 → r ≤ 63 →
    let i0 := r / 4
    let l := r % 4
    let lo := BitVec.ofNat 32 (8 * (64 * q + r))
    let hi := BitVec.ofNat 32 ((64 * q + r) / 2 ^ 29)
    (∀ i : Fin 16, i.val < i0 → (fmtFirst q r m)[i] = m[i]) ∧
    (∀ i : Fin 16, i.val = i0 →
      (fmtFirst q r m)[i] = (m[i] &&& BitVec.ofNat 32 (2 ^ (8 * l) - 1)) ||| ((0x80 : Word) <<< (8 * l))) ∧
    (∀ i : Fin 16, i0 < i.val → i.val ≤ 13 ∨ 56 ≤ r → (fmtFirst q r m)[i] = 0) ∧
    (r ≤ 55 → (fmtFirst q r m)[14] = lo ∧ (fmtFirst q r m)[15] = hi ∧ ∀ i : Fin 16, (fmtSecond q r)[i] = 0) ∧
    (56 ≤ r → (fmtSecond q r)[14] = lo ∧ (fmtSecond q r)[15] = hi ∧
      ∀ i : Fin 16, i.val ≤ 13 → (fmtSecond q r)[i] = 0)

/-- R63, R18: the formatter reads no byte of X past the tail. -/
def Obligations.FormatterIgnoresPastTail : Prop :=
  ∀ (q r : Nat) (m m' : Block), r ≤ 63 → (∀ k < r, blockByte m k = blockByte m' k) →
    fmtFirst q r m = fmtFirst q r m'

/-- R67, R123: the tail bytes survive formatting, and formatting again with the same `q` and `r` gives the same
blocks. -/
def Obligations.FormatTwiceSameBlocks : Prop :=
  ∀ (q r : Nat) (m : Block), r ≤ 63 →
    (∀ k < r, blockByte (fmtFirst q r m) k = blockByte m k) ∧ fmtFirst q r (fmtFirst q r m) = fmtFirst q r m

/-- R66: the formatter on a 32-byte message gives the source's fixed tail. -/
def Obligations.FastPathBlock : Prop :=
  ∀ m : Block, tailNeedsTwo 32 = false ∧
    fmtFirst 0 32 m = #v[m[0], m[1], m[2], m[3], m[4], m[5], m[6], m[7], 0x00000080, 0, 0, 0, 0, 0, 0x00000100, 0]

/-- R65: with the tail of a message in X, the formatter makes the last blocks of `pad`, the earlier ones are the
message's own, and compressing them all gives the source's hash. -/
def Obligations.FormatterAgreesWithPad : Prop :=
  ∀ (m : List Byte) (X : Block), m.length ≤ 2 ^ 32 - 1 →
    (∀ k < m.length % 64, m[64 * (m.length / 64) + k]? = some (blockByte X k)) →
    let q := m.length / 64
    let r := m.length % 64
    let messageBlocks := (List.range q).map (blockAt m)
    pad m = messageBlocks ++ (if r ≤ 55 then [fmtFirst q r X] else [fmtFirst q r X, fmtSecond q r]) ∧
    Machine.hash m = digestOf (compressAll (compressAll iv messageBlocks)
      (if r ≤ 55 then [fmtFirst q r X] else [fmtFirst q r X, fmtSecond q r]))

/-- R88, R90, R91: a COMPRESS of the next full block of a message keeps "H and BLKCNT stand for the first blocks". -/
def Obligations.CompressExtendsAbsorbedMessage : Prop :=
  ∀ (m : List Byte) (q : Nat) (s : State), s.turn = .core → 64 * (q + 1) ≤ m.length → m.length ≤ 2 ^ 32 - 1 →
    s.h = compressAll iv ((List.range q).map (blockAt m)) → s.blkcnt.toNat = q → s.x = blockAt m q →
    ∃ t, exec .compress s = .next t ∧ t.h = compressAll iv ((List.range (q + 1)).map (blockAt m)) ∧
      t.blkcnt.toNat = q + 1

/-- R89, R90, R91: when H and BLKCNT stand for all full blocks of a message and X holds its tail, the completion of
FINAL leaves the source's digest in H, its block count in BLKCNT, and DONE = 1. -/
def Obligations.FinalYieldsHash : Prop :=
  ∀ (m : List Byte) (s : State), s.turn = .core → m.length ≤ 2 ^ 32 - 1 →
    s.h = compressAll iv ((List.range (m.length / 64)).map (blockAt m)) → s.blkcnt.toNat = m.length / 64 →
    (∀ k < m.length % 64, m[64 * (m.length / 64) + k]? = some (blockByte s.x k)) →
    ∃ t, exec (.final (m.length % 64)) s = .next t ∧ digestOf t.h = Machine.hash m ∧
      t.blkcnt.toNat = (pad m).length ∧ t.status.done = true ∧ t.status.busy = false ∧ t.pend = none

/-! ### Codec (43_codec.md) -/

/-- R94: `bytes_to_words_le` word by word. -/
def Obligations.BytesToWords : Prop :=
  ∀ (b : List Byte) (n : Nat), b.length = 4 * n →
    (bytesToWords b).length = n ∧
    ∀ i < n, ∃ b0 b1 b2 b3 : Byte,
      b[4 * i]? = some b0 ∧ b[4 * i + 1]? = some b1 ∧ b[4 * i + 2]? = some b2 ∧ b[4 * i + 3]? = some b3 ∧
      (bytesToWords b)[i]?.map BitVec.toNat =
        some (b0.toNat + 2 ^ 8 * b1.toNat + 2 ^ 16 * b2.toNat + 2 ^ 24 * b3.toNat)

/-- R95: `words_to_bytes_le` byte by byte, and the two functions are mutual inverses. -/
def Obligations.CodecInverse : Prop :=
  (∀ (ws : List Word) (i k : Nat) (w : Word), k < 4 → ws[i]? = some w →
    (wordsToBytes ws)[4 * i + k]? = some (w.extractLsb' (8 * k) 8)) ∧
  (∀ ws : List Word, (wordsToBytes ws).length = 4 * ws.length ∧ bytesToWords (wordsToBytes ws) = ws) ∧
  (∀ (b : List Byte) (n : Nat), b.length = 4 * n → wordsToBytes (bytesToWords b) = b)

/-- R97: the digest is the bytes of the H window at offsets 0x10..0x23 in order. -/
def Obligations.DigestIsHWindow : Prop :=
  ∀ s : State, digestOf s.h = (List.range 20).map (fun k => getByte s (0x10 + k)) ∧
    ∀ (i : Fin 5) (k : Nat), k < 4 →
      (digestOf s.h)[4 * i.val + k]? = some (s.h[i].extractLsb' (8 * k) 8)

/-! ### The register window (20_memory.md, 60_exceptions.md) -/

/-- R32: the host address of an offset is in the window and decodes to it; addresses outside do not; BASE is a
multiple of 0x100. -/
def Obligations.WindowAtBase : Prop :=
  Config.base % 0x100 = 0 ∧
  (∀ off : BitVec 8, windowOffset (Config.base + off.toNat) = some off) ∧
  (∀ addr : Nat, addr < Config.base ∨ Config.base + 0xFF < addr → windowOffset addr = none)

/-- R36, R37: which accesses are allowed, region by region. -/
def Obligations.AllowedAccesses : Prop :=
  ∀ (off : BitVec 8) (n : Nat),
    (allowed off.toNat n .read = true ↔
      (n = 4 ∧ (off = 0x00 ∨ off = 0x04 ∨ off = 0x08)) ∨
      ((n = 1 ∨ n = 2 ∨ n = 4) ∧ off.toNat % n = 0 ∧
        ((0x10 ≤ off.toNat ∧ off.toNat ≤ 0x23) ∨ (0x40 ≤ off.toNat ∧ off.toNat ≤ 0xBF)))) ∧
    (allowed off.toNat n .write = true ↔
      (n = 4 ∧ (off = 0x00 ∨ off = 0x04)) ∨
      ((n = 1 ∨ n = 2 ∨ n = 4) ∧ off.toNat % n = 0 ∧
        ((0x10 ≤ off.toNat ∧ off.toNat ≤ 0x23) ∨ (0x40 ≤ off.toNat ∧ off.toNat ≤ 0x7F))))

/-- R100: an access of a wrong shape, to a reserved offset, or a write to a read-only region is answered with BusError and
changes no register, not even ERR; a read of CMD is no error and answers 0. -/
def Obligations.BusErrorChangesNothing : Prop :=
  ∀ (s : State) (off : BitVec 8) (n : Nat) (v : Word),
    let reserved := (0x0C ≤ off.toNat ∧ off.toNat ≤ 0x0F) ∨ (0x24 ≤ off.toNat ∧ off.toNat ≤ 0x3F) ∨ 0xC0 ≤ off.toNat
    let badShape := ¬ (n = 1 ∨ n = 2 ∨ n = 4) ∨ off.toNat % n ≠ 0 ∨ (off.toNat ≤ 0x0B ∧ n ≠ 4) ∨ reserved
    let readOnly := (0x08 ≤ off.toNat ∧ off.toNat ≤ 0x0B) ∨ (0x80 ≤ off.toNat ∧ off.toNat ≤ 0xBF)
    (s.hostDoes (.read off n) → badShape → s.stepsTo (s.taken (.busError off))) ∧
    (s.hostDoes (.write off n v) → badShape ∨ readOnly → s.stepsTo (s.taken (.busError off))) ∧
    (s.hostDoes (.read 0x00 4) → s.stepsTo (s.taken (.data 0)))

/-- R38, R20, R21, R40: what an allowed read answers. A read while busy of BLKCNT, H, X or Y answers a free value of `n`
bytes, whatever it is (the model's choice of a numbered free value, log entry 3). The premise on ERRCODE holds in every
legal state (log entry 9). -/
def Obligations.ReadAnswers : Prop :=
  ∀ (s : State) (off : BitVec 8) (n : Nat),
    s.hostDoes (.read off n) → allowed off.toNat n .read = true → s.status.errCode.toNat ≤ 4 →
    (off = 0x00 → s.stepsTo (s.taken (.data 0))) ∧
    (off = 0x04 → s.stepsTo (s.taken (.data s.status.word))) ∧
    (off = 0x08 → s.status.busy = false → s.stepsTo (s.taken (.data s.blkcnt))) ∧
    (0x10 ≤ off.toNat → s.status.busy = false →
      s.stepsTo (s.taken (.data (BitVec.ofNat 32
        (((List.range n).map fun k => (getByte s (off.toNat + k)).toNat * 2 ^ (8 * k)).sum))))) ∧
    (0x08 ≤ off.toNat → s.status.busy = true →
      step s = .next (State.handOver
        { s.taken (.data (BitVec.ofNat 32 ((Config.freeWord s.draws).toNat % 2 ^ (8 * n)))) with
          draws := s.draws + 1 }))

/-- R38, R21, R103: what an allowed write to STATUS, H or X does, and every register it leaves alone; each byte of the
window outside the stored ones reads as before. -/
def Obligations.WriteEffects : Prop :=
  ∀ (s : State) (off : BitVec 8) (n : Nat) (v : Word),
    s.hostDoes (.write off n v) → allowed off.toNat n .write = true →
    (off = 0x04 → s.stepsTo
      (if v.getLsbD 1 then { s.taken .ok with status := { s.status with err := false, errCode := 0 } }
       else s.taken .ok)) ∧
    (0x10 ≤ off.toNat → s.status.busy = true →
      s.stepsTo { s.taken .ok with status := { s.status with err := true, errCode := 2 } }) ∧
    (0x10 ≤ off.toNat → s.status.busy = false →
      ∃ (h : Chain) (x : Block), s.stepsTo { s.taken .ok with h := h, x := x } ∧
        ∀ o : Nat, getByte { s with h := h, x := x } o =
          (if off.toNat ≤ o ∧ o < off.toNat + n then v.extractLsb' (8 * (o - off.toNat)) 8 else getByte s o))

/-- R39: a byte written to the H or X window reads back, and every other byte of the window is unchanged. -/
def Obligations.SetByteThenGetByte : Prop :=
  ∀ (s : State) (o o' : Nat) (b : Byte),
    (0x10 ≤ o ∧ o ≤ 0x23) ∨ (0x40 ≤ o ∧ o ≤ 0x7F) →
    getByte (setByte s o b) o' = if o' = o then b else getByte s o'

/-- R34, R35: a 4-byte access at a word's offset moves the whole word, and a wider write is its 1-byte writes in
order. -/
def Obligations.WordAccess : Prop :=
  (∀ (s : State) (i : Fin 5), readValue s (0x10 + 4 * i.val) 4 = s.h[i].toNat) ∧
  (∀ (s : State) (i : Fin 16), readValue s (0x40 + 4 * i.val) 4 = s.x[i].toNat ∧
    readValue s (0x80 + 4 * i.val) 4 = s.y[i].toNat) ∧
  (∀ (s : State) (v : Word) (i : Fin 5), writeBytes v (0x10 + 4 * i.val) 0 4 s = { s with h := s.h.set i v }) ∧
  (∀ (s : State) (v : Word) (i : Fin 16), writeBytes v (0x40 + 4 * i.val) 0 4 s = { s with x := s.x.set i v }) ∧
  (∀ (s : State) (v : Word) (o n : Nat), writeBytes v o 0 n s =
    (List.range n).foldl (fun t k => writeBytes ((byteOf v k).zeroExtend 32) (o + k) 0 1 t) s)

/-- R42: a read changes no register. `wait` is one read of the polling loop (the model's choice, log entry 20). -/
def Obligations.ReadsHaveNoSideEffect : Prop :=
  ∀ (s t : State) (off : BitVec 8) (n : Nat), s.hostDoes (.read off n) ∨ s.hostDoes .wait →
    step s = .next t → s.sameRegisters t ∧ t.work = s.work

/-- R21: STATUS as a word, field by field; the reserved bits read as 0. -/
def Obligations.StatusWordFields : Prop :=
  ∀ t : Status,
    t.word.getLsbD 0 = t.busy ∧ t.word.getLsbD 1 = t.err ∧ t.word.getLsbD 2 = t.done ∧ t.word.getLsbD 3 = t.pad2 ∧
    t.word.extractLsb 7 4 = 0 ∧ t.word.extractLsb 11 8 = t.errCode ∧ t.word.extractLsb 31 12 = 0

/-- R107: examples of the priority of errors, for all states: a 2-byte CMD write is a BusError even while busy; a
reserved opcode while busy reports BUSY; COMPRESS with DONE = 1 at the length limit reports SEQUENCE. -/
def Obligations.ErrorPriority : Prop :=
  ∀ (s : State) (v : Word),
    (s.hostDoes (.write 0x00 2 v) → s.stepsTo (s.taken (.busError 0x00))) ∧
    (s.hostDoes (.write 0x00 4 0x00000006) → s.status.busy = true →
      s.stepsTo { s.taken .ok with status := { s.status with err := true, errCode := 2 } }) ∧
    (s.hostDoes (.write 0x00 4 0x00000002) → s.status.busy = false → s.status.done = true →
      s.blkcnt.toNat = 2 ^ 26 - 1 →
      s.stepsTo { s.taken .ok with status := { s.status with err := true, errCode := 3 } })

/-- R102: the codes, and the code a state holds after any step from a state with a code that exists. -/
def Obligations.ErrorCodes : Prop :=
  CmdError.illegalCmd.code = 1 ∧ CmdError.busy.code = 2 ∧ CmdError.sequence.code = 3 ∧
  CmdError.inputTooLarge.code = 4 ∧ State.reset.status.errCode = 0 ∧
  ∀ s t : State, s.status.errCode.toNat ≤ 4 → step s = .next t → t.status.errCode.toNat ≤ 4

/-! ### Which steps write a register (10_state.md) -/

/-- R22, R27: BUSY and PEND are set by an accepted command other than NOP, cleared by its completion, and by reset;
nothing else writes them. -/
def Obligations.BusyWriters : Prop :=
  ∀ s t : State, step s = .next t →
    (∀ i, s.coreRuns i → t.status.busy = false ∧ t.pend = none) ∧
    (s.status.busy = false → t.status.busy = true → ∃ w i, s.hostDoes (.write 0x00 4 w) ∧ decode w = .command i ∧
      i ≠ .nop ∧ t.pend = some i) ∧
    (s.status.busy = true → t.status.busy = false → (∃ i, s.coreRuns i) ∨ s.hostDoes .reset) ∧
    (t.pend ≠ s.pend → t.status.busy = t.pend.isSome)

/-- R23: DONE is set by the completion of FINAL and cleared by that of INIT and by reset; nothing else writes it. -/
def Obligations.DoneWriters : Prop :=
  ∀ s t : State, step s = .next t →
    (∀ r, s.coreRuns (.final r) → t.status.done = true) ∧
    (s.coreRuns .init ∨ s.hostDoes .reset → t.status.done = false) ∧
    ((∀ r, ¬ s.coreRuns (.final r)) → ¬ s.coreRuns .init → ¬ s.hostDoes .reset → t.status.done = s.status.done)

/-- R24: PAD2 is written by the completion of FORMAT and FINAL, cleared by that of INIT and by reset; nothing else
writes it. -/
def Obligations.Pad2Writers : Prop :=
  ∀ s t : State, step s = .next t →
    (∀ r, s.coreRuns (.final r) ∨ s.coreRuns (.format r) → t.status.pad2 = decide (56 ≤ r)) ∧
    (s.coreRuns .init ∨ s.hostDoes .reset → t.status.pad2 = false) ∧
    ((∀ r, ¬ s.coreRuns (.final r) ∧ ¬ s.coreRuns (.format r)) → ¬ s.coreRuns .init → ¬ s.hostDoes .reset →
      t.status.pad2 = s.status.pad2)

/-- From R25: a step leaves ERR and ERRCODE as they are, or is a host write after which ERR is 1 and the code one of 1..4, or
is a STATUS write with bit 1 set or a reset after which both are 0. So no completion, no read and no idle step changes
them. Which writes are rejected, and with which code, other statements say (IssueChecksInOrder, WriteEffects). -/
def Obligations.ErrorWriters : Prop :=
  ∀ s t : State, step s = .next t →
    (t.status.err = s.status.err ∧ t.status.errCode = s.status.errCode) ∨
    (t.status.err = true ∧ 1 ≤ t.status.errCode.toNat ∧ t.status.errCode.toNat ≤ 4 ∧
      ∃ off n v, s.hostDoes (.write off n v)) ∨
    (t.status.err = false ∧ t.status.errCode = 0 ∧
      (s.hostDoes .reset ∨ ∃ v, s.hostDoes (.write 0x04 4 v) ∧ v.getLsbD 1 = true))

/-- R26: BLKCNT is cleared by INIT and reset, counts COMPRESS and the trailer blocks of FINAL, and is left alone by
every other step. -/
def Obligations.BlkcntWriters : Prop :=
  ∀ s t : State, step s = .next t →
    (s.coreRuns .init ∨ s.hostDoes .reset → t.blkcnt = 0) ∧
    (s.coreRuns .compress → t.blkcnt = s.blkcnt + 1) ∧
    (∀ r, s.coreRuns (.final r) → t.blkcnt = s.blkcnt + 1 + (if t.status.pad2 then 1 else 0)) ∧
    (¬ s.coreRuns .init → ¬ s.hostDoes .reset → ¬ s.coreRuns .compress → (∀ r, ¬ s.coreRuns (.final r)) →
      t.blkcnt = s.blkcnt)

/-- R16, R125: H changes only by the completion of INIT, COMPRESS, RAWCOMP or FINAL, by a host write to the H window
while idle, and by reset; after FINAL (DONE = 1, in a legal state) COMPRESS and FINAL are not among them. -/
def Obligations.HWriters : Prop :=
  ∀ s t : State, step s = .next t → t.h ≠ s.h →
    (s.coreRuns .init ∨ s.coreRuns .rawcomp ∨ s.hostDoes .reset ∨
      (∃ off n v, s.hostDoes (.write off n v) ∧ 0x10 ≤ off.toNat ∧ off.toNat ≤ 0x23 ∧ s.status.busy = false) ∨
      s.coreRuns .compress ∨ (∃ r, s.coreRuns (.final r))) ∧
    (s.Inv → s.status.done = true → ¬ s.coreRuns .compress ∧ ∀ r, ¬ s.coreRuns (.final r))

/-- R18, R19: X changes only by the completion of FORMAT or FINAL, by a host write to the X window while idle, and by
reset; Y only by the completion of FORMAT or FINAL and by reset. -/
def Obligations.XAndYWriters : Prop :=
  ∀ s t : State, step s = .next t →
    (t.x ≠ s.x → (∃ r, s.coreRuns (.format r) ∨ s.coreRuns (.final r)) ∨ s.hostDoes .reset ∨
      ∃ off n v, s.hostDoes (.write off n v) ∧ 0x40 ≤ off.toNat ∧ off.toNat ≤ 0x7F ∧ s.status.busy = false) ∧
    (t.y ≠ s.y → (∃ r, s.coreRuns (.format r) ∨ s.coreRuns (.final r)) ∨ s.hostDoes .reset)

/-- R47, R85: while a command is pending no host step but a reset changes what it reads: H, X, Y, BLKCNT, DONE, PAD2,
BUSY and PEND. -/
def Obligations.PendingInputsProtected : Prop :=
  ∀ s t : State, s.turn = .host → s.status.busy = true → ¬ s.hostDoes .reset → step s = .next t →
    t.h = s.h ∧ t.x = s.x ∧ t.y = s.y ∧ t.blkcnt = s.blkcnt ∧ t.status.done = s.status.done ∧
    t.status.pad2 = s.status.pad2 ∧ t.status.busy = true ∧ t.pend = s.pend

/-! ### The whole machine -/

/-- R118: the state after reset, where the spec gives a value. -/
def Obligations.ResetValues : Prop :=
  State.reset.status.word = 0x00000000 ∧ State.reset.status.busy = false ∧ State.reset.status.err = false ∧
  State.reset.status.done = false ∧ State.reset.status.pad2 = false ∧ State.reset.status.errCode = 0 ∧
  State.reset.blkcnt = 0x00000000 ∧ State.reset.pend = none ∧
  ∀ s : State, s.hostDoes .reset → ∃ t, step s = .next t ∧ t.status.word = 0x00000000 ∧ t.blkcnt = 0 ∧
    t.pend = none ∧ t.status.busy = false

/-- R120: after reset COMPRESS and FINAL are accepted without INIT, and the completion compresses the H the reset left
(free values, the model's choice, log entry 1). -/
def Obligations.NoInitNeededAfterReset : Prop :=
  (∀ i : Instr, (i = .compress ∨ ∃ r, i = .final r) → ∃ t, exec i State.reset = .next t ∧ t.pend = some i ∧
    t.status.busy = true ∧ t.status.err = false ∧ t.h = State.reset.h) ∧
  (∃ u, exec .compress { State.reset with turn := .core, pend := some .compress } = .next u ∧
    u.h = compress State.reset.h State.reset.x)

/-- R99: from a state whose ERRCODE exists no step stops: every step answers a next state, errors among them (the stop on
another ERRCODE is the model's choice, log entry 9). -/
def Obligations.StepNeverStops : Prop :=
  ∀ s : State, s.status.errCode.toNat ≤ 4 → ∃ t, step s = .next t

/-- R85, R127: a pending command is completed after finitely many steps, whatever the host does in between short of a
reset: within `delay + 1` steps (the model's choice, log entry 4) the core has the turn with every register the command
reads unchanged, and the next step ends the command. -/
def Obligations.PendingCommandCompletes : Prop :=
  ∀ (s : State) (i : Instr), s.Inv → s.pend = some i → .reset ∉ s.inbox →
    ∃ k u t, k ≤ s.delay + 1 ∧ core.run k s = .next u ∧ u.turn = .core ∧ u.pend = some i ∧
      u.h = s.h ∧ u.x = s.x ∧ u.y = s.y ∧ u.blkcnt = s.blkcnt ∧ u.status.done = s.status.done ∧
      u.status.pad2 = s.status.pad2 ∧ core.run (k + 1) s = .next t ∧ t.pend = none ∧ t.status.busy = false

/-- The invariant holds at reset; its part on the step counter rests on the model's choice (log entry 10). -/
def Obligations.ResetIsLegal : Prop := State.reset.Inv

/-- R25, R26, R27, R85, R102: every step from a legal state ends in a legal state. Two parts of the invariant are the
model's choice: who moves next (log entry 5), and that the hidden step counter is at most 80 between completions and
after a reset too (log entry 10; R28 speaks of the completion step only). -/
def Obligations.StepKeepsLegal : Prop :=
  ∀ s t : State, s.Inv → step s = .next t → t.Inv
end

