-- ==== Sys2Proof/Laws/Codec.lean ====
section
/-!
SUPPORT. Bytes and words: a word is its four bytes, a block is its 64 bytes (43_codec.md R94, R95).
-/

namespace Sys2Proof.Machine

/-- A word as the number its bytes make (R94). -/
theorem le32_toNat (b0 b1 b2 b3 : Byte) :
    (le32 b0 b1 b2 b3).toNat = b0.toNat + 2 ^ 8 * b1.toNat + 2 ^ 16 * b2.toNat + 2 ^ 24 * b3.toNat := by
  have h0 := b0.isLt
  have h1 := b1.isLt
  have h2 := b2.isLt
  have h3 := b3.isLt
  rw [le32, BitVec.toNat_ofNat]
  omega

/-- Byte `k` of a word as a number. -/
theorem byteOf_toNat (w : Word) (k : Nat) : (byteOf w k).toNat = w.toNat / 2 ^ (8 * k) % 2 ^ 8 := by
  simp [byteOf, BitVec.extractLsb'_toNat, Nat.shiftRight_eq_div_pow]

@[simp] theorem byteOf_le32_zero (b0 b1 b2 b3 : Byte) : byteOf (le32 b0 b1 b2 b3) 0 = b0 := by
  have h0 := b0.isLt
  apply BitVec.eq_of_toNat_eq
  rw [byteOf_toNat, le32_toNat]
  omega

@[simp] theorem byteOf_le32_one (b0 b1 b2 b3 : Byte) : byteOf (le32 b0 b1 b2 b3) 1 = b1 := by
  have h0 := b0.isLt
  have h1 := b1.isLt
  apply BitVec.eq_of_toNat_eq
  rw [byteOf_toNat, le32_toNat]
  omega

@[simp] theorem byteOf_le32_two (b0 b1 b2 b3 : Byte) : byteOf (le32 b0 b1 b2 b3) 2 = b2 := by
  have h0 := b0.isLt
  have h1 := b1.isLt
  have h2 := b2.isLt
  apply BitVec.eq_of_toNat_eq
  rw [byteOf_toNat, le32_toNat]
  omega

@[simp] theorem byteOf_le32_three (b0 b1 b2 b3 : Byte) : byteOf (le32 b0 b1 b2 b3) 3 = b3 := by
  have h0 := b0.isLt
  have h1 := b1.isLt
  have h2 := b2.isLt
  have h3 := b3.isLt
  apply BitVec.eq_of_toNat_eq
  rw [byteOf_toNat, le32_toNat]
  omega

/-- Two words with the same four bytes are equal. -/
theorem word_eq_of_bytes {v w : Word} (h : ∀ k < 4, byteOf v k = byteOf w k) : v = w := by
  apply BitVec.eq_of_getLsbD_eq
  intro i hi
  have hk := congrArg (fun b : Byte => b.getLsbD (i % 8)) (h (i / 8) (by omega))
  simp only [byteOf, BitVec.getLsbD_extractLsb', show i % 8 < 8 from by omega, decide_true, Bool.true_and,
    show 8 * (i / 8) + i % 8 = i from by omega] at hk
  exact hk

@[simp] theorem le32_bytes (w : Word) : le32 (byteOf w 0) (byteOf w 1) (byteOf w 2) (byteOf w 3) = w := by
  apply word_eq_of_bytes
  intro k hk
  obtain rfl | rfl | rfl | rfl : k = 0 ∨ k = 1 ∨ k = 2 ∨ k = 3 := by omega
  all_goals simp

/-- Byte `k` of four bytes. -/
theorem byteOf_le32 (f : Nat → Byte) {k : Nat} (h : k < 4) : byteOf (le32 (f 0) (f 1) (f 2) (f 3)) k = f k := by
  obtain rfl | rfl | rfl | rfl : k = 0 ∨ k = 1 ∨ k = 2 ∨ k = 3 := by omega
  all_goals simp

/-- Byte `k` of the block made of the bytes `f` (R63). -/
theorem blockByte_blockOfBytes (f : Nat → Byte) {k : Nat} (h : k < 64) : blockByte (blockOfBytes f) k = f k := by
  unfold blockByte blockOfBytes
  have hi : k / 4 < 16 := by omega
  have hg : (Vector.ofFn fun i : Fin 16 => le32 (f (4 * i.val)) (f (4 * i.val + 1)) (f (4 * i.val + 2))
      (f (4 * i.val + 3))).toList.getD (k / 4) 0
      = le32 (f (4 * (k / 4))) (f (4 * (k / 4) + 1)) (f (4 * (k / 4) + 2)) (f (4 * (k / 4) + 3)) := by
    simp [List.getD_eq_getElem?_getD, hi]
  rw [hg]
  refine (byteOf_le32 (fun j => f (4 * (k / 4) + j)) (by omega : k % 4 < 4)).trans ?_
  show f (4 * (k / 4) + k % 4) = f k
  congr 1
  omega

/-- Word `i` of a block, byte by byte. -/
theorem byteOf_getElem (m : Block) {i k : Nat} (hi : i < 16) (hk : k < 4) :
    byteOf m[i] k = blockByte m (4 * i + k) := by
  unfold blockByte
  have hd : (4 * i + k) / 4 = i := by omega
  have hm : (4 * i + k) % 4 = k := by omega
  rw [hd, hm]
  simp [List.getD_eq_getElem?_getD, hi]

/-- Two blocks with the same 64 bytes are equal. -/
theorem block_eq_of_bytes {m m' : Block} (h : ∀ k < 64, blockByte m k = blockByte m' k) : m = m' := by
  apply Vector.ext
  intro i hi
  apply word_eq_of_bytes
  intro k hk
  rw [byteOf_getElem m hi hk, byteOf_getElem m' hi hk, h _ (by omega)]

/-- Byte `k` of X' (R63). -/
theorem blockByte_fmtFirst (q r : Nat) (m : Block) {k : Nat} (h : k < 64) :
    blockByte (fmtFirst q r m) k = firstByte q r m k := blockByte_blockOfBytes _ h

/-- Byte `k` of Y' (R63). -/
theorem blockByte_fmtSecond (q r : Nat) {k : Nat} (h : k < 64) :
    blockByte (fmtSecond q r) k = secondByte q r k := blockByte_blockOfBytes _ h

@[simp] theorem wordsToBytes_cons (w : Word) (ws : List Word) :
    wordsToBytes (w :: ws) = byteOf w 0 :: byteOf w 1 :: byteOf w 2 :: byteOf w 3 :: wordsToBytes ws := rfl

@[simp] theorem wordsToBytes_nil : wordsToBytes [] = [] := rfl

@[simp] theorem bytesToWords_cons (b0 b1 b2 b3 : Byte) (rest : List Byte) :
    bytesToWords (b0 :: b1 :: b2 :: b3 :: rest) = le32 b0 b1 b2 b3 :: bytesToWords rest := rfl

end Sys2Proof.Machine
end

