-- ==== Sys2Proof/Laws/State.lean ====
section
/-!
SUPPORT. One lemma per field per update of State and Status, so that no proof unfolds a record update.
-/

namespace Sys2Proof.Machine

/-! ### Status -/

@[simp] theorem Status.reject_busy (t : Status) (c : CmdError) : (t.reject c).busy = t.busy := rfl
@[simp] theorem Status.reject_err (t : Status) (c : CmdError) : (t.reject c).err = true := rfl
@[simp] theorem Status.reject_done (t : Status) (c : CmdError) : (t.reject c).done = t.done := rfl
@[simp] theorem Status.reject_pad2 (t : Status) (c : CmdError) : (t.reject c).pad2 = t.pad2 := rfl
@[simp] theorem Status.reject_errCode (t : Status) (c : CmdError) : (t.reject c).errCode = c.code := rfl

@[simp] theorem Status.setBusy_busy (t : Status) (b : Bool) : (t.setBusy b).busy = b := rfl
@[simp] theorem Status.setBusy_err (t : Status) (b : Bool) : (t.setBusy b).err = t.err := rfl
@[simp] theorem Status.setBusy_done (t : Status) (b : Bool) : (t.setBusy b).done = t.done := rfl
@[simp] theorem Status.setBusy_pad2 (t : Status) (b : Bool) : (t.setBusy b).pad2 = t.pad2 := rfl
@[simp] theorem Status.setBusy_errCode (t : Status) (b : Bool) : (t.setBusy b).errCode = t.errCode := rfl

@[simp] theorem Status.setDone_busy (t : Status) (b : Bool) : (t.setDone b).busy = t.busy := rfl
@[simp] theorem Status.setDone_err (t : Status) (b : Bool) : (t.setDone b).err = t.err := rfl
@[simp] theorem Status.setDone_done (t : Status) (b : Bool) : (t.setDone b).done = b := rfl
@[simp] theorem Status.setDone_pad2 (t : Status) (b : Bool) : (t.setDone b).pad2 = t.pad2 := rfl
@[simp] theorem Status.setDone_errCode (t : Status) (b : Bool) : (t.setDone b).errCode = t.errCode := rfl

@[simp] theorem Status.setPad2_busy (t : Status) (b : Bool) : (t.setPad2 b).busy = t.busy := rfl
@[simp] theorem Status.setPad2_err (t : Status) (b : Bool) : (t.setPad2 b).err = t.err := rfl
@[simp] theorem Status.setPad2_done (t : Status) (b : Bool) : (t.setPad2 b).done = t.done := rfl
@[simp] theorem Status.setPad2_pad2 (t : Status) (b : Bool) : (t.setPad2 b).pad2 = b := rfl
@[simp] theorem Status.setPad2_errCode (t : Status) (b : Bool) : (t.setPad2 b).errCode = t.errCode := rfl

theorem Status.write_set (t : Status) {w : Word} (h : w.getLsbD 1 = true) :
    t.write w = { t with err := false, errCode := 0 } := if_pos h

theorem Status.write_clear (t : Status) {w : Word} (h : w.getLsbD 1 = false) : t.write w = t :=
  if_neg (by rw [h]; decide)

@[simp] theorem Status.write_busy (t : Status) (w : Word) : (t.write w).busy = t.busy := by
  unfold Status.write; split <;> rfl

@[simp] theorem Status.write_done (t : Status) (w : Word) : (t.write w).done = t.done := by
  unfold Status.write; split <;> rfl

@[simp] theorem Status.write_pad2 (t : Status) (w : Word) : (t.write w).pad2 = t.pad2 := by
  unfold Status.write; split <;> rfl

@[simp] theorem Status.reset_busy : Status.reset.busy = false := rfl
@[simp] theorem Status.reset_err : Status.reset.err = false := rfl
@[simp] theorem Status.reset_done : Status.reset.done = false := rfl
@[simp] theorem Status.reset_pad2 : Status.reset.pad2 = false := rfl
@[simp] theorem Status.reset_errCode : Status.reset.errCode = 0 := rfl

/-! ### State -/

@[simp] theorem State.cmdError_h (s : State) (c : CmdError) : (s.cmdError c).h = s.h := rfl
@[simp] theorem State.cmdError_x (s : State) (c : CmdError) : (s.cmdError c).x = s.x := rfl
@[simp] theorem State.cmdError_y (s : State) (c : CmdError) : (s.cmdError c).y = s.y := rfl
@[simp] theorem State.cmdError_status (s : State) (c : CmdError) : (s.cmdError c).status = s.status.reject c := rfl
@[simp] theorem State.cmdError_blkcnt (s : State) (c : CmdError) : (s.cmdError c).blkcnt = s.blkcnt := rfl
@[simp] theorem State.cmdError_pend (s : State) (c : CmdError) : (s.cmdError c).pend = s.pend := rfl
@[simp] theorem State.cmdError_work (s : State) (c : CmdError) : (s.cmdError c).work = s.work := rfl
@[simp] theorem State.cmdError_turn (s : State) (c : CmdError) : (s.cmdError c).turn = s.turn := rfl
@[simp] theorem State.cmdError_delay (s : State) (c : CmdError) : (s.cmdError c).delay = s.delay := rfl
@[simp] theorem State.cmdError_inbox (s : State) (c : CmdError) : (s.cmdError c).inbox = s.inbox := rfl
@[simp] theorem State.cmdError_answers (s : State) (c : CmdError) : (s.cmdError c).answers = s.answers := rfl
@[simp] theorem State.cmdError_draws (s : State) (c : CmdError) : (s.cmdError c).draws = s.draws := rfl

@[simp] theorem State.writeStatus_h (s : State) (w : Word) : (s.writeStatus w).h = s.h := rfl
@[simp] theorem State.writeStatus_x (s : State) (w : Word) : (s.writeStatus w).x = s.x := rfl
@[simp] theorem State.writeStatus_y (s : State) (w : Word) : (s.writeStatus w).y = s.y := rfl
@[simp] theorem State.writeStatus_status (s : State) (w : Word) : (s.writeStatus w).status = s.status.write w := rfl
@[simp] theorem State.writeStatus_blkcnt (s : State) (w : Word) : (s.writeStatus w).blkcnt = s.blkcnt := rfl
@[simp] theorem State.writeStatus_pend (s : State) (w : Word) : (s.writeStatus w).pend = s.pend := rfl
@[simp] theorem State.writeStatus_work (s : State) (w : Word) : (s.writeStatus w).work = s.work := rfl
@[simp] theorem State.writeStatus_turn (s : State) (w : Word) : (s.writeStatus w).turn = s.turn := rfl
@[simp] theorem State.writeStatus_delay (s : State) (w : Word) : (s.writeStatus w).delay = s.delay := rfl
@[simp] theorem State.writeStatus_inbox (s : State) (w : Word) : (s.writeStatus w).inbox = s.inbox := rfl
@[simp] theorem State.writeStatus_answers (s : State) (w : Word) : (s.writeStatus w).answers = s.answers := rfl
@[simp] theorem State.writeStatus_draws (s : State) (w : Word) : (s.writeStatus w).draws = s.draws := rfl

@[simp] theorem State.accept_h (s : State) (i : Instr) : (s.accept i).h = s.h := rfl
@[simp] theorem State.accept_x (s : State) (i : Instr) : (s.accept i).x = s.x := rfl
@[simp] theorem State.accept_y (s : State) (i : Instr) : (s.accept i).y = s.y := rfl
@[simp] theorem State.accept_status (s : State) (i : Instr) : (s.accept i).status = s.status.setBusy true := rfl
@[simp] theorem State.accept_blkcnt (s : State) (i : Instr) : (s.accept i).blkcnt = s.blkcnt := rfl
@[simp] theorem State.accept_pend (s : State) (i : Instr) : (s.accept i).pend = some i := rfl
@[simp] theorem State.accept_work (s : State) (i : Instr) : (s.accept i).work = s.work := rfl
@[simp] theorem State.accept_turn (s : State) (i : Instr) : (s.accept i).turn = s.turn := rfl
@[simp] theorem State.accept_delay (s : State) (i : Instr) : (s.accept i).delay = Config.freeLatency s.draws := rfl
@[simp] theorem State.accept_inbox (s : State) (i : Instr) : (s.accept i).inbox = s.inbox := rfl
@[simp] theorem State.accept_answers (s : State) (i : Instr) : (s.accept i).answers = s.answers := rfl
@[simp] theorem State.accept_draws (s : State) (i : Instr) : (s.accept i).draws = s.draws + 1 := rfl

@[simp] theorem State.finish_h (s : State) : (s.finish).h = s.h := rfl
@[simp] theorem State.finish_x (s : State) : (s.finish).x = s.x := rfl
@[simp] theorem State.finish_y (s : State) : (s.finish).y = s.y := rfl
@[simp] theorem State.finish_status (s : State) : (s.finish).status = s.status.setBusy false := rfl
@[simp] theorem State.finish_blkcnt (s : State) : (s.finish).blkcnt = s.blkcnt := rfl
@[simp] theorem State.finish_pend (s : State) : (s.finish).pend = none := rfl
@[simp] theorem State.finish_work (s : State) : (s.finish).work = s.work := rfl
@[simp] theorem State.finish_turn (s : State) : (s.finish).turn = s.turn := rfl
@[simp] theorem State.finish_delay (s : State) : (s.finish).delay = s.delay := rfl
@[simp] theorem State.finish_inbox (s : State) : (s.finish).inbox = s.inbox := rfl
@[simp] theorem State.finish_answers (s : State) : (s.finish).answers = s.answers := rfl
@[simp] theorem State.finish_draws (s : State) : (s.finish).draws = s.draws := rfl

@[simp] theorem State.absorb_h (s : State) (m : Block) : (s.absorb m).h = compress s.h m := rfl
@[simp] theorem State.absorb_x (s : State) (m : Block) : (s.absorb m).x = s.x := rfl
@[simp] theorem State.absorb_y (s : State) (m : Block) : (s.absorb m).y = s.y := rfl
@[simp] theorem State.absorb_status (s : State) (m : Block) : (s.absorb m).status = s.status := rfl
@[simp] theorem State.absorb_blkcnt (s : State) (m : Block) : (s.absorb m).blkcnt = s.blkcnt := rfl
@[simp] theorem State.absorb_pend (s : State) (m : Block) : (s.absorb m).pend = s.pend := rfl
@[simp] theorem State.absorb_work (s : State) (m : Block) : (s.absorb m).work = runLines s.h m := rfl
@[simp] theorem State.absorb_turn (s : State) (m : Block) : (s.absorb m).turn = s.turn := rfl
@[simp] theorem State.absorb_delay (s : State) (m : Block) : (s.absorb m).delay = s.delay := rfl
@[simp] theorem State.absorb_inbox (s : State) (m : Block) : (s.absorb m).inbox = s.inbox := rfl
@[simp] theorem State.absorb_answers (s : State) (m : Block) : (s.absorb m).answers = s.answers := rfl
@[simp] theorem State.absorb_draws (s : State) (m : Block) : (s.absorb m).draws = s.draws := rfl

@[simp] theorem State.formatTail_h (s : State) (r : Nat) : (s.formatTail r).h = s.h := rfl
@[simp] theorem State.formatTail_x (s : State) (r : Nat) : (s.formatTail r).x = fmtFirst s.blkcnt.toNat r s.x := rfl
@[simp] theorem State.formatTail_y (s : State) (r : Nat) : (s.formatTail r).y = fmtSecond s.blkcnt.toNat r := rfl
@[simp] theorem State.formatTail_status (s : State) (r : Nat) : (s.formatTail r).status = s.status.setPad2 (tailNeedsTwo r) := rfl
@[simp] theorem State.formatTail_blkcnt (s : State) (r : Nat) : (s.formatTail r).blkcnt = s.blkcnt := rfl
@[simp] theorem State.formatTail_pend (s : State) (r : Nat) : (s.formatTail r).pend = s.pend := rfl
@[simp] theorem State.formatTail_work (s : State) (r : Nat) : (s.formatTail r).work = s.work := rfl
@[simp] theorem State.formatTail_turn (s : State) (r : Nat) : (s.formatTail r).turn = s.turn := rfl
@[simp] theorem State.formatTail_delay (s : State) (r : Nat) : (s.formatTail r).delay = s.delay := rfl
@[simp] theorem State.formatTail_inbox (s : State) (r : Nat) : (s.formatTail r).inbox = s.inbox := rfl
@[simp] theorem State.formatTail_answers (s : State) (r : Nat) : (s.formatTail r).answers = s.answers := rfl
@[simp] theorem State.formatTail_draws (s : State) (r : Nat) : (s.formatTail r).draws = s.draws := rfl

@[simp] theorem State.countBlocks_h (s : State) (n : Word) : (s.countBlocks n).h = s.h := rfl
@[simp] theorem State.countBlocks_x (s : State) (n : Word) : (s.countBlocks n).x = s.x := rfl
@[simp] theorem State.countBlocks_y (s : State) (n : Word) : (s.countBlocks n).y = s.y := rfl
@[simp] theorem State.countBlocks_status (s : State) (n : Word) : (s.countBlocks n).status = s.status := rfl
@[simp] theorem State.countBlocks_blkcnt (s : State) (n : Word) : (s.countBlocks n).blkcnt = s.blkcnt + n := rfl
@[simp] theorem State.countBlocks_pend (s : State) (n : Word) : (s.countBlocks n).pend = s.pend := rfl
@[simp] theorem State.countBlocks_work (s : State) (n : Word) : (s.countBlocks n).work = s.work := rfl
@[simp] theorem State.countBlocks_turn (s : State) (n : Word) : (s.countBlocks n).turn = s.turn := rfl
@[simp] theorem State.countBlocks_delay (s : State) (n : Word) : (s.countBlocks n).delay = s.delay := rfl
@[simp] theorem State.countBlocks_inbox (s : State) (n : Word) : (s.countBlocks n).inbox = s.inbox := rfl
@[simp] theorem State.countBlocks_answers (s : State) (n : Word) : (s.countBlocks n).answers = s.answers := rfl
@[simp] theorem State.countBlocks_draws (s : State) (n : Word) : (s.countBlocks n).draws = s.draws := rfl

@[simp] theorem State.startHash_h (s : State) : (s.startHash).h = iv := rfl
@[simp] theorem State.startHash_x (s : State) : (s.startHash).x = s.x := rfl
@[simp] theorem State.startHash_y (s : State) : (s.startHash).y = s.y := rfl
@[simp] theorem State.startHash_status (s : State) : (s.startHash).status = (s.status.setDone false).setPad2 false := rfl
@[simp] theorem State.startHash_blkcnt (s : State) : (s.startHash).blkcnt = 0 := rfl
@[simp] theorem State.startHash_pend (s : State) : (s.startHash).pend = s.pend := rfl
@[simp] theorem State.startHash_work (s : State) : (s.startHash).work = s.work := rfl
@[simp] theorem State.startHash_turn (s : State) : (s.startHash).turn = s.turn := rfl
@[simp] theorem State.startHash_delay (s : State) : (s.startHash).delay = s.delay := rfl
@[simp] theorem State.startHash_inbox (s : State) : (s.startHash).inbox = s.inbox := rfl
@[simp] theorem State.startHash_answers (s : State) : (s.startHash).answers = s.answers := rfl
@[simp] theorem State.startHash_draws (s : State) : (s.startHash).draws = s.draws := rfl

@[simp] theorem State.endHash_h (s : State) : (s.endHash).h = s.h := rfl
@[simp] theorem State.endHash_x (s : State) : (s.endHash).x = s.x := rfl
@[simp] theorem State.endHash_y (s : State) : (s.endHash).y = s.y := rfl
@[simp] theorem State.endHash_status (s : State) : (s.endHash).status = s.status.setDone true := rfl
@[simp] theorem State.endHash_blkcnt (s : State) : (s.endHash).blkcnt = s.blkcnt := rfl
@[simp] theorem State.endHash_pend (s : State) : (s.endHash).pend = s.pend := rfl
@[simp] theorem State.endHash_work (s : State) : (s.endHash).work = s.work := rfl
@[simp] theorem State.endHash_turn (s : State) : (s.endHash).turn = s.turn := rfl
@[simp] theorem State.endHash_delay (s : State) : (s.endHash).delay = s.delay := rfl
@[simp] theorem State.endHash_inbox (s : State) : (s.endHash).inbox = s.inbox := rfl
@[simp] theorem State.endHash_answers (s : State) : (s.endHash).answers = s.answers := rfl
@[simp] theorem State.endHash_draws (s : State) : (s.endHash).draws = s.draws := rfl

@[simp] theorem State.afterDraw_h (s : State) : (s.afterDraw).h = s.h := rfl
@[simp] theorem State.afterDraw_x (s : State) : (s.afterDraw).x = s.x := rfl
@[simp] theorem State.afterDraw_y (s : State) : (s.afterDraw).y = s.y := rfl
@[simp] theorem State.afterDraw_status (s : State) : (s.afterDraw).status = s.status := rfl
@[simp] theorem State.afterDraw_blkcnt (s : State) : (s.afterDraw).blkcnt = s.blkcnt := rfl
@[simp] theorem State.afterDraw_pend (s : State) : (s.afterDraw).pend = s.pend := rfl
@[simp] theorem State.afterDraw_work (s : State) : (s.afterDraw).work = s.work := rfl
@[simp] theorem State.afterDraw_turn (s : State) : (s.afterDraw).turn = s.turn := rfl
@[simp] theorem State.afterDraw_delay (s : State) : (s.afterDraw).delay = s.delay := rfl
@[simp] theorem State.afterDraw_inbox (s : State) : (s.afterDraw).inbox = s.inbox := rfl
@[simp] theorem State.afterDraw_answers (s : State) : (s.afterDraw).answers = s.answers := rfl
@[simp] theorem State.afterDraw_draws (s : State) : (s.afterDraw).draws = s.draws + 1 := rfl

@[simp] theorem State.answer_h (s : State) (a : Answer) : (s.answer a).h = s.h := rfl
@[simp] theorem State.answer_x (s : State) (a : Answer) : (s.answer a).x = s.x := rfl
@[simp] theorem State.answer_y (s : State) (a : Answer) : (s.answer a).y = s.y := rfl
@[simp] theorem State.answer_status (s : State) (a : Answer) : (s.answer a).status = s.status := rfl
@[simp] theorem State.answer_blkcnt (s : State) (a : Answer) : (s.answer a).blkcnt = s.blkcnt := rfl
@[simp] theorem State.answer_pend (s : State) (a : Answer) : (s.answer a).pend = s.pend := rfl
@[simp] theorem State.answer_work (s : State) (a : Answer) : (s.answer a).work = s.work := rfl
@[simp] theorem State.answer_turn (s : State) (a : Answer) : (s.answer a).turn = s.turn := rfl
@[simp] theorem State.answer_delay (s : State) (a : Answer) : (s.answer a).delay = s.delay := rfl
@[simp] theorem State.answer_inbox (s : State) (a : Answer) : (s.answer a).inbox = s.inbox := rfl
@[simp] theorem State.answer_answers (s : State) (a : Answer) : (s.answer a).answers = a :: s.answers := rfl
@[simp] theorem State.answer_draws (s : State) (a : Answer) : (s.answer a).draws = s.draws := rfl

@[simp] theorem State.withInbox_h (s : State) (rest : List HostEvent) : (s.withInbox rest).h = s.h := rfl
@[simp] theorem State.withInbox_x (s : State) (rest : List HostEvent) : (s.withInbox rest).x = s.x := rfl
@[simp] theorem State.withInbox_y (s : State) (rest : List HostEvent) : (s.withInbox rest).y = s.y := rfl
@[simp] theorem State.withInbox_status (s : State) (rest : List HostEvent) : (s.withInbox rest).status = s.status := rfl
@[simp] theorem State.withInbox_blkcnt (s : State) (rest : List HostEvent) : (s.withInbox rest).blkcnt = s.blkcnt := rfl
@[simp] theorem State.withInbox_pend (s : State) (rest : List HostEvent) : (s.withInbox rest).pend = s.pend := rfl
@[simp] theorem State.withInbox_work (s : State) (rest : List HostEvent) : (s.withInbox rest).work = s.work := rfl
@[simp] theorem State.withInbox_turn (s : State) (rest : List HostEvent) : (s.withInbox rest).turn = s.turn := rfl
@[simp] theorem State.withInbox_delay (s : State) (rest : List HostEvent) : (s.withInbox rest).delay = s.delay := rfl
@[simp] theorem State.withInbox_inbox (s : State) (rest : List HostEvent) : (s.withInbox rest).inbox = rest := rfl
@[simp] theorem State.withInbox_answers (s : State) (rest : List HostEvent) : (s.withInbox rest).answers = s.answers := rfl
@[simp] theorem State.withInbox_draws (s : State) (rest : List HostEvent) : (s.withInbox rest).draws = s.draws := rfl

@[simp] theorem State.taken_h (s : State) (a : Answer) : (s.taken a).h = s.h := rfl
@[simp] theorem State.taken_x (s : State) (a : Answer) : (s.taken a).x = s.x := rfl
@[simp] theorem State.taken_y (s : State) (a : Answer) : (s.taken a).y = s.y := rfl
@[simp] theorem State.taken_status (s : State) (a : Answer) : (s.taken a).status = s.status := rfl
@[simp] theorem State.taken_blkcnt (s : State) (a : Answer) : (s.taken a).blkcnt = s.blkcnt := rfl
@[simp] theorem State.taken_pend (s : State) (a : Answer) : (s.taken a).pend = s.pend := rfl
@[simp] theorem State.taken_work (s : State) (a : Answer) : (s.taken a).work = s.work := rfl
@[simp] theorem State.taken_turn (s : State) (a : Answer) : (s.taken a).turn = .host := rfl
@[simp] theorem State.taken_delay (s : State) (a : Answer) : (s.taken a).delay = s.delay := rfl
@[simp] theorem State.taken_inbox (s : State) (a : Answer) : (s.taken a).inbox = s.inbox.tail := rfl
@[simp] theorem State.taken_answers (s : State) (a : Answer) : (s.taken a).answers = a :: s.answers := rfl
@[simp] theorem State.taken_draws (s : State) (a : Answer) : (s.taken a).draws = s.draws := rfl

@[simp] theorem State.hostActs_h (s : State) : s.hostActs.h = s.h := rfl
@[simp] theorem State.hostActs_x (s : State) : s.hostActs.x = s.x := rfl
@[simp] theorem State.hostActs_y (s : State) : s.hostActs.y = s.y := rfl
@[simp] theorem State.hostActs_status (s : State) : s.hostActs.status = s.status := rfl
@[simp] theorem State.hostActs_blkcnt (s : State) : s.hostActs.blkcnt = s.blkcnt := rfl
@[simp] theorem State.hostActs_pend (s : State) : s.hostActs.pend = s.pend := rfl
@[simp] theorem State.hostActs_work (s : State) : s.hostActs.work = s.work := rfl
@[simp] theorem State.hostActs_turn (s : State) : s.hostActs.turn = .host := rfl
@[simp] theorem State.hostActs_delay (s : State) : s.hostActs.delay = s.delay := rfl
@[simp] theorem State.hostActs_inbox (s : State) : s.hostActs.inbox = s.inbox.tail := rfl
@[simp] theorem State.hostActs_answers (s : State) : s.hostActs.answers = s.answers := rfl
@[simp] theorem State.hostActs_draws (s : State) : s.hostActs.draws = s.draws := rfl

@[simp] theorem State.hostActs_answer (s : State) (a : Answer) : s.hostActs.answer a = s.taken a := rfl

@[simp] theorem State.platformReset_status (s : State) (rest : List HostEvent) : (s.platformReset rest).status = Status.reset := rfl
@[simp] theorem State.platformReset_blkcnt (s : State) (rest : List HostEvent) : (s.platformReset rest).blkcnt = 0 := rfl
@[simp] theorem State.platformReset_pend (s : State) (rest : List HostEvent) : (s.platformReset rest).pend = none := rfl
@[simp] theorem State.platformReset_turn (s : State) (rest : List HostEvent) : (s.platformReset rest).turn = .host := rfl
@[simp] theorem State.platformReset_delay (s : State) (rest : List HostEvent) : (s.platformReset rest).delay = 0 := rfl
@[simp] theorem State.platformReset_inbox (s : State) (rest : List HostEvent) : (s.platformReset rest).inbox = rest := rfl
@[simp] theorem State.platformReset_answers (s : State) (rest : List HostEvent) : (s.platformReset rest).answers = s.answers := rfl
@[simp] theorem State.platformReset_draws (s : State) (rest : List HostEvent) : (s.platformReset rest).draws = s.draws + resetDraws := rfl
@[simp] theorem State.platformReset_work_j (s : State) (rest : List HostEvent) :
    (s.platformReset rest).work.j = (Config.freeWord (s.draws + 52)).toNat % 81 := rfl

/-! ### Handing the turn over changes the turn and the delay alone -/

@[simp] theorem State.handOver_h (s : State) : s.handOver.h = s.h := rfl

@[simp] theorem State.handOver_x (s : State) : s.handOver.x = s.x := rfl

@[simp] theorem State.handOver_y (s : State) : s.handOver.y = s.y := rfl

@[simp] theorem State.handOver_status (s : State) : s.handOver.status = s.status := rfl

@[simp] theorem State.handOver_blkcnt (s : State) : s.handOver.blkcnt = s.blkcnt := rfl

@[simp] theorem State.handOver_pend (s : State) : s.handOver.pend = s.pend := rfl

@[simp] theorem State.handOver_work (s : State) : s.handOver.work = s.work := rfl

@[simp] theorem State.handOver_inbox (s : State) : s.handOver.inbox = s.inbox := rfl

@[simp] theorem State.handOver_answers (s : State) : s.handOver.answers = s.answers := rfl

@[simp] theorem State.handOver_draws (s : State) : s.handOver.draws = s.draws := rfl

/-! ### The compressions of FINAL -/

@[simp] theorem State.absorbTrailer_x (s : State) : s.absorbTrailer.x = s.x := by
  unfold State.absorbTrailer; split <;> rfl

@[simp] theorem State.absorbTrailer_y (s : State) : s.absorbTrailer.y = s.y := by
  unfold State.absorbTrailer; split <;> rfl

@[simp] theorem State.absorbTrailer_status (s : State) : s.absorbTrailer.status = s.status := by
  unfold State.absorbTrailer; split <;> rfl

@[simp] theorem State.absorbTrailer_blkcnt (s : State) : s.absorbTrailer.blkcnt = s.blkcnt := by
  unfold State.absorbTrailer; split <;> rfl

@[simp] theorem State.absorbTrailer_pend (s : State) : s.absorbTrailer.pend = s.pend := by
  unfold State.absorbTrailer; split <;> rfl

@[simp] theorem State.absorbTrailer_turn (s : State) : s.absorbTrailer.turn = s.turn := by
  unfold State.absorbTrailer; split <;> rfl

@[simp] theorem State.absorbTrailer_delay (s : State) : s.absorbTrailer.delay = s.delay := by
  unfold State.absorbTrailer; split <;> rfl

@[simp] theorem State.absorbTrailer_inbox (s : State) : s.absorbTrailer.inbox = s.inbox := by
  unfold State.absorbTrailer; split <;> rfl

@[simp] theorem State.absorbTrailer_answers (s : State) : s.absorbTrailer.answers = s.answers := by
  unfold State.absorbTrailer; split <;> rfl

@[simp] theorem State.absorbTrailer_draws (s : State) : s.absorbTrailer.draws = s.draws := by
  unfold State.absorbTrailer; split <;> rfl

end Sys2Proof.Machine
end

