-- ==== Sys2Proof/Laws/Ops.lean ====
section
/-!
SUPPORT. What each shared operation can do, once: the issue checks, handing the turn over, the agents' moves.
-/

namespace Sys2Proof.Machine

/-! ### Issue checks -/

theorem unlessBusy_of_busy {s : State} (h : s.status.busy = true) (go : Result) :
    unlessBusy s go = .next (s.cmdError .busy) := if_pos h

theorem unlessBusy_of_idle {s : State} (h : s.status.busy = false) (go : Result) : unlessBusy s go = go :=
  if_neg (by rw [h]; decide)

theorem unlessDone_of_done {s : State} (h : s.status.done = true) (go : Result) :
    unlessDone s go = .next (s.cmdError .sequence) := if_pos h

theorem unlessDone_of_open {s : State} (h : s.status.done = false) (go : Result) : unlessDone s go = go :=
  if_neg (by rw [h]; decide)

theorem unlessFull_of_full {s : State} (h : s.blkcnt.toNat = maxMessageBlocks) (go : Result) :
    unlessFull s go = .next (s.cmdError .inputTooLarge) := if_pos h

theorem unlessFull_of_room {s : State} (h : s.blkcnt.toNat ≠ maxMessageBlocks) (go : Result) :
    unlessFull s go = go := if_neg h

/-- A check answers a next state in two ways: the rejection, or what follows the check. -/
theorem unlessBusy_next {s t : State} {go : Result} (h : unlessBusy s go = .next t) :
    (s.status.busy = true ∧ t = s.cmdError .busy) ∨ (s.status.busy = false ∧ go = .next t) := by
  cases hb : s.status.busy with
  | true => rw [unlessBusy_of_busy hb] at h; cases h; exact .inl ⟨rfl, rfl⟩
  | false => rw [unlessBusy_of_idle hb] at h; exact .inr ⟨rfl, h⟩

theorem unlessDone_next {s t : State} {go : Result} (h : unlessDone s go = .next t) :
    (s.status.done = true ∧ t = s.cmdError .sequence) ∨ (s.status.done = false ∧ go = .next t) := by
  cases hb : s.status.done with
  | true => rw [unlessDone_of_done hb] at h; cases h; exact .inl ⟨rfl, rfl⟩
  | false => rw [unlessDone_of_open hb] at h; exact .inr ⟨rfl, h⟩

theorem unlessFull_next {s t : State} {go : Result} (h : unlessFull s go = .next t) :
    (s.blkcnt.toNat = maxMessageBlocks ∧ t = s.cmdError .inputTooLarge) ∨
    (s.blkcnt.toNat ≠ maxMessageBlocks ∧ go = .next t) := by
  by_cases hb : s.blkcnt.toNat = maxMessageBlocks
  · rw [unlessFull_of_full hb] at h; cases h; exact .inl ⟨hb, rfl⟩
  · rw [unlessFull_of_room hb] at h; exact .inr ⟨hb, h⟩

/-! ### Meanings by turn -/

/-- The host's turn: the checks of 42_driver.md R84 in order, then NOP returns or the command is accepted. -/
theorem exec_host {i : Instr} {s : State} (ht : s.turn = .host) :
    exec i s = unlessBusy s (match i with
      | .nop => .next s
      | .init => .next (s.accept .init)
      | .compress => unlessDone s (unlessFull s (.next (s.accept .compress)))
      | .final r => unlessDone s (.next (s.accept (.final r)))
      | .format r => unlessDone s (.next (s.accept (.format r)))
      | .rawcomp => .next (s.accept .rawcomp)) := by
  cases i <;> simp only [exec, execNop, execInit, execCompress, execFinal, execFormat, execRawcomp, ht]

/-- The core's turn: what the completion of a command leaves, before PEND and BUSY are cleared. -/
def completed (i : Instr) (s : State) : State :=
  match i with
  | .nop => s
  | .init => s.startHash
  | .compress => (s.absorb s.x).countBlocks 1
  | .final r => (((s.formatTail r).absorbTrailer).countBlocks (if tailNeedsTwo r then 2 else 1)).endHash
  | .format r => s.formatTail r
  | .rawcomp => s.absorb s.x

theorem exec_core {i : Instr} {s : State} (ht : s.turn = .core) : exec i s = .next (completed i s).finish := by
  cases i <;> simp only [exec, execNop, execInit, execCompress, execFinal, execFormat, execRawcomp, ht, completed]

/-! ### What a completion leaves alone, whatever the command -/

@[simp] theorem completed_pend (i : Instr) (s : State) : (completed i s).pend = s.pend := by
  cases i <;> simp [completed]

@[simp] theorem completed_turn (i : Instr) (s : State) : (completed i s).turn = s.turn := by
  cases i <;> simp [completed]

@[simp] theorem completed_delay (i : Instr) (s : State) : (completed i s).delay = s.delay := by
  cases i <;> simp [completed]

@[simp] theorem completed_inbox (i : Instr) (s : State) : (completed i s).inbox = s.inbox := by
  cases i <;> simp [completed]

@[simp] theorem completed_answers (i : Instr) (s : State) : (completed i s).answers = s.answers := by
  cases i <;> simp [completed]

@[simp] theorem completed_draws (i : Instr) (s : State) : (completed i s).draws = s.draws := by
  cases i <;> simp [completed]

@[simp] theorem completed_err (i : Instr) (s : State) : (completed i s).status.err = s.status.err := by
  cases i <;> simp [completed]

@[simp] theorem completed_errCode (i : Instr) (s : State) : (completed i s).status.errCode = s.status.errCode := by
  cases i <;> simp [completed]

/-! ### What a completion writes, command by command -/

theorem completed_blkcnt (i : Instr) (s : State) :
    (completed i s).blkcnt = match i with
      | .nop => s.blkcnt
      | .init => 0
      | .compress => s.blkcnt + 1
      | .final r => s.blkcnt + (if tailNeedsTwo r then 2 else 1)
      | .format _ => s.blkcnt
      | .rawcomp => s.blkcnt := by
  cases i <;> simp [completed]

theorem completed_done (i : Instr) (s : State) :
    (completed i s).status.done = match i with
      | .nop => s.status.done
      | .init => false
      | .compress => s.status.done
      | .final _ => true
      | .format _ => s.status.done
      | .rawcomp => s.status.done := by
  cases i <;> simp [completed]

theorem completed_pad2 (i : Instr) (s : State) :
    (completed i s).status.pad2 = match i with
      | .nop => s.status.pad2
      | .init => false
      | .compress => s.status.pad2
      | .final r => tailNeedsTwo r
      | .format r => tailNeedsTwo r
      | .rawcomp => s.status.pad2 := by
  cases i <;> simp [completed]

/-- What a command can do in the host's turn: nothing, a rejection, or its acceptance. -/
theorem exec_host_next {i : Instr} {s t : State} (ht : s.turn = .host) (h : exec i s = .next t) :
    (i = .nop ∧ t = s) ∨ (∃ c, c ≠ .illegalCmd ∧ t = s.cmdError c) ∨
    (s.status.busy = false ∧ t = s.accept i ∧ i.isPendable = true ∧
      (i = .compress → s.status.done = false ∧ s.blkcnt.toNat ≠ maxMessageBlocks) ∧
      ((∃ r, i = .final r ∨ i = .format r) → s.status.done = false)) := by
  rw [exec_host ht] at h
  obtain ⟨-, rfl⟩ | ⟨hb, h⟩ := unlessBusy_next h
  · exact .inr (.inl ⟨.busy, by decide, rfl⟩)
  cases i with
  | nop => cases h; exact .inl ⟨rfl, rfl⟩
  | init => cases h; exact .inr (.inr ⟨hb, rfl, rfl, by simp, by simp⟩)
  | rawcomp => cases h; exact .inr (.inr ⟨hb, rfl, rfl, by simp, by simp⟩)
  | compress =>
    obtain ⟨-, rfl⟩ | ⟨hd, h⟩ := unlessDone_next h
    · exact .inr (.inl ⟨.sequence, by decide, rfl⟩)
    obtain ⟨-, rfl⟩ | ⟨hf, h⟩ := unlessFull_next h
    · exact .inr (.inl ⟨.inputTooLarge, by decide, rfl⟩)
    cases h; exact .inr (.inr ⟨hb, rfl, rfl, fun _ => ⟨hd, hf⟩, by simp⟩)
  | final r =>
    obtain ⟨-, rfl⟩ | ⟨hd, h⟩ := unlessDone_next h
    · exact .inr (.inl ⟨.sequence, by decide, rfl⟩)
    cases h; exact .inr (.inr ⟨hb, rfl, rfl, by simp, fun _ => hd⟩)
  | format r =>
    obtain ⟨-, rfl⟩ | ⟨hd, h⟩ := unlessDone_next h
    · exact .inr (.inl ⟨.sequence, by decide, rfl⟩)
    cases h; exact .inr (.inr ⟨hb, rfl, rfl, by simp, fun _ => hd⟩)

theorem unlessBusy_answers {s : State} {go : Result} (h : ∃ t, go = .next t) : ∃ t, unlessBusy s go = .next t := by
  unfold unlessBusy; split
  · exact ⟨_, rfl⟩
  · exact h

theorem unlessDone_answers {s : State} {go : Result} (h : ∃ t, go = .next t) : ∃ t, unlessDone s go = .next t := by
  unfold unlessDone; split
  · exact ⟨_, rfl⟩
  · exact h

theorem unlessFull_answers {s : State} {go : Result} (h : ∃ t, go = .next t) : ∃ t, unlessFull s go = .next t := by
  unfold unlessFull; split
  · exact ⟨_, rfl⟩
  · exact h

/-- Every command answers a next state in every state. -/
theorem exec_answers (i : Instr) (s : State) : ∃ t, exec i s = .next t := by
  cases ht : s.turn with
  | core => exact ⟨_, exec_core ht⟩
  | host =>
    rw [exec_host ht]
    apply unlessBusy_answers
    cases i with
    | nop => exact ⟨_, rfl⟩
    | init => exact ⟨_, rfl⟩
    | rawcomp => exact ⟨_, rfl⟩
    | compress => exact unlessDone_answers (unlessFull_answers ⟨_, rfl⟩)
    | final r => exact unlessDone_answers ⟨_, rfl⟩
    | format r => exact unlessDone_answers ⟨_, rfl⟩

/-! ### Handing the turn over -/

theorem handOver_idle {s : State} (h : s.pend = none) : s.handOver = { s with turn := .host } := by
  unfold State.handOver State.turnAfter State.delayAfter; rw [h]

theorem handOver_due {s : State} (h : s.pend ≠ none) (hd : s.delay = 0) :
    s.handOver = { s with turn := .core } := by
  unfold State.handOver State.turnAfter State.delayAfter
  cases hp : s.pend with
  | none => exact absurd hp h
  | some i => rw [hd]; rfl

theorem handOver_waiting {s : State} (h : s.pend ≠ none) (hd : s.delay ≠ 0) :
    s.handOver = { s with turn := .host, delay := s.delay - 1 } := by
  unfold State.handOver State.turnAfter State.delayAfter
  cases hp : s.pend with
  | none => exact absurd hp h
  | some i => rw [if_neg hd]

/-- The core gets the turn only while a command is pending. -/
theorem handOver_core {s : State} (h : s.handOver.turn = .core) : s.pend.isSome = true := by
  cases hp : s.pend with
  | none => rw [handOver_idle hp] at h; cases h
  | some i => rfl

theorem afterMove_next {o : Result} {t : State} (h : afterMove o = .next t) : ∃ u, o = .next u ∧ t = u.handOver := by
  cases o with
  | next u => cases h; exact ⟨u, rfl, rfl⟩
  | fault r => cases h
  | refused r => cases h

end Sys2Proof.Machine
end

