-- ==== Sys2Proof/Laws/Compression.lean ====
section
/-!
SUPPORT. The steps of a compression as a whole, and what a completion leaves in the working registers.
-/

namespace Sys2Proof.Machine

/-- The steps run each line on its own, one step number after the other (41_compression.md R77). -/
theorem Work.steps_eq (m : Block) (n : Nat) (w : Work) :
    w.steps m n =
      { h := w.h, left := (List.range' w.j n).foldl (fun l j => leftStep m j l) w.left,
        right := (List.range' w.j n).foldl (fun l j => rightStep m j l) w.right, j := w.j + n } := by
  induction n generalizing w with
  | zero => rfl
  | succ n ih => rw [Work.steps, ih]; simp [Work.advance, List.range'_succ]; omega

/-- The step counter stands at 80 after a compression (10_state.md R30). -/
@[simp] theorem runLines_j (h : Chain) (m : Block) : (runLines h m).j = 80 := by
  unfold runLines; rw [Work.steps_eq]; rfl

@[simp] theorem State.absorb_work_j (s : State) (block : Block) : (s.absorb block).work.j = 80 := runLines_j _ _

@[simp] theorem State.absorbTrailer_work_j (s : State) : s.absorbTrailer.work.j = 80 := by
  unfold State.absorbTrailer; split <;> exact runLines_j _ _

/-- A completion leaves the step counter where it was or at 80. -/
theorem completed_work_j (i : Instr) (s : State) :
    (completed i s).work.j = s.work.j ∨ (completed i s).work.j = 80 := by
  cases i with
  | nop => exact .inl rfl
  | init => exact .inl rfl
  | compress => exact .inr (State.absorb_work_j _ _)
  | final r => exact .inr (State.absorbTrailer_work_j _)
  | format r => exact .inl rfl
  | rawcomp => exact .inr (State.absorb_work_j _ _)

end Sys2Proof.Machine
end

