-- ==== Sys2Proof/Laws/Decode.lean ====
section
/-!
SUPPORT. The fields of a command word as numbers, and what the decoder can answer.
-/

namespace Sys2Proof

theorem rsv1Field_toNat (w : Word) : (rsv1Field w).toNat = w.toNat / 2 ^ 14 := by
  have := w.isLt
  simp [rsv1Field, BitVec.extractLsb'_toNat, Nat.shiftRight_eq_div_pow]
  omega

theorem tailField_toNat (w : Word) : (tailField w).toNat = w.toNat / 2 ^ 8 % 2 ^ 6 := by
  simp [tailField, BitVec.extractLsb'_toNat, Nat.shiftRight_eq_div_pow]

theorem rsv0Field_toNat (w : Word) : (rsv0Field w).toNat = w.toNat / 2 ^ 4 % 2 ^ 4 := by
  simp [rsv0Field, BitVec.extractLsb'_toNat, Nat.shiftRight_eq_div_pow]

theorem opField_toNat (w : Word) : (opField w).toNat = w.toNat % 2 ^ 4 := by
  simp [opField, BitVec.extractLsb'_toNat]

/-- What the decoder answers when the reserved fields are 0 (R53). -/
theorem decode_of_fields {w : Word} (h1 : rsv1Field w = 0) (h0 : rsv0Field w = 0) :
    (opField w = 3 ∧ decode w = .command (.final (tailField w).toNat)) ∨
    (opField w = 4 ∧ decode w = .command (.format (tailField w).toNat)) ∨
    (tailField w = 0 ∧
      ((opField w = 0 ∧ decode w = .command .nop) ∨ (opField w = 1 ∧ decode w = .command .init) ∨
       (opField w = 2 ∧ decode w = .command .compress) ∨ (opField w = 5 ∧ decode w = .command .rawcomp))) ∨
    (6 ≤ (opField w).toNat ∧ decode w = .illegal .reservedOpcode) ∨
    (tailField w ≠ 0 ∧ opField w ≠ 3 ∧ opField w ≠ 4 ∧ decode w = .illegal .tailNotTaken) := by
  unfold decode
  simp only [h1, h0, ne_eq, not_true_eq_false, if_false]
  generalize opField w = op
  generalize tailField w = tail
  revert op tail
  decide +kernel

theorem decode_rsv1 {w : Word} (h : rsv1Field w ≠ 0) : decode w = .illegal .rsv1Set := if_pos h

theorem decode_rsv0 {w : Word} (h1 : rsv1Field w = 0) (h : rsv0Field w ≠ 0) : decode w = .illegal .rsv0Set := by
  unfold decode
  rw [if_neg (by simpa using h1), if_pos h]

/-- A word that decodes to a command has its reserved fields 0. -/
theorem decode_command_reserved {w : Word} {i : Instr} (h : decode w = .command i) :
    rsv1Field w = 0 ∧ rsv0Field w = 0 := by
  by_cases h1 : rsv1Field w = 0
  · by_cases h0 : rsv0Field w = 0
    · exact ⟨h1, h0⟩
    · simp [decode_rsv0 h1 h0] at h
  · simp [decode_rsv1 h1] at h

end Sys2Proof
end

