-- ==== Sys2Proof/Laws/Padding.lean ====
section
/-!
SUPPORT. The padded bytes one by one, and the bytes of a block cut out of a byte sequence.
-/

namespace Sys2Proof.Machine

theorem padded_length (m : List Byte) : (paddedBytes m).length = m.length + 1 + zeroCount m.length + 8 := by
  simp [paddedBytes]; omega

theorem blockCount_eq (m : List Byte) : blockCount m = (m.length + 1 + zeroCount m.length + 8) / 64 := by
  rw [blockCount, padded_length]

/-- Byte `j` of the padded bytes: message, 0x80, zeros, length field (R58). -/
theorem padded_get (m : List Byte) (j : Nat) : (paddedBytes m).getD j 0 =
    if j < m.length then m.getD j 0 else if j = m.length then 0x80 else if j < m.length + 1 + zeroCount m.length then 0 else
     if j < m.length + 1 + zeroCount m.length + 8 then lengthByte m.length (j - (m.length + 1 + zeroCount m.length)) else 0 := by
  unfold paddedBytes
  simp only [List.getD_eq_getElem?_getD, List.append_assoc, List.cons_append]
  split
  · rw [List.getElem?_append_left (by assumption)]
  · rw [List.getElem?_append_right (by omega)]
    split
    · subst j; simp
    · obtain ⟨d, rfl⟩ : ∃ d, j = m.length + 1 + d := ⟨j - (m.length + 1), by omega⟩
      rw [show m.length + 1 + d - m.length = d + 1 by omega, List.getElem?_cons_succ]
      split
      · rw [List.getElem?_append_left (by simp; omega)]; rw [List.getElem?_replicate, if_pos (by omega)]; rfl
      · rw [List.getElem?_append_right (by simp; omega), List.length_replicate]
        obtain ⟨e, rfl⟩ : ∃ e, d = zeroCount m.length + e := ⟨d - zeroCount m.length, by omega⟩
        rw [show m.length + 1 + (zeroCount m.length + e) - (m.length + 1 + zeroCount m.length) = e by omega, show zeroCount m.length + e - zeroCount m.length = e by omega]
        split
        · have : e < 8 := by omega
          rcases e with _ | _ | _ | _ | _ | _ | _ | _ | e <;> first | rfl | omega
        · rw [List.getElem?_eq_none]; rfl
          simp; omega

theorem blockByte_blockAt (b : List Byte) (i k : Nat) (h : k < 64) :
    blockByte (blockAt b i) k = b.getD (64 * i + k) 0 := blockByte_blockOfBytes _ h

end Sys2Proof.Machine
end

