-- ==== Sys2Proof/Laws/PerInstr.lean ====
section
/-!
SUPPORT. For every command: the fields of its word are the ones 30_encoding.md R50 and R52 give it.
-/

namespace Sys2Proof

/-- An encoded word as a number. -/
theorem encode_toNat {i : Instr} (h : i.tail ≤ 63) : (encode i).toNat = i.opcode + 2 ^ 8 * i.tail := by
  have : i.opcode ≤ 5 := by cases i <;> simp [Instr.opcode]
  simp only [encode, BitVec.toNat_ofNat]
  omega

/-- The fields of the word of any command whose tail length fits in six bits. -/
theorem encode_fields {i : Instr} (h : i.tail ≤ 63) :
    rsv1Field (encode i) = 0 ∧ rsv0Field (encode i) = 0 ∧
    (opField (encode i)).toNat = i.opcode ∧ (tailField (encode i)).toNat = i.tail := by
  have ho : i.opcode ≤ 5 := by cases i <;> simp [Instr.opcode]
  have hw := encode_toNat h
  refine ⟨BitVec.eq_of_toNat_eq ?_, BitVec.eq_of_toNat_eq ?_, ?_, ?_⟩
  · rw [rsv1Field_toNat, hw]
    show _ = 0
    omega
  · rw [rsv0Field_toNat, hw]
    show _ = 0
    omega
  · rw [opField_toNat, hw]
    omega
  · rw [tailField_toNat, hw]
    omega

end Sys2Proof

/-- The word of a well-formed command has its reserved fields 0, its opcode in OP and its tail length in TAIL. -/
def Sys2Proof.Laws.EncodedFields.Statement (i : Sys2Proof.Instr) : Prop :=
  i.wellFormed = true →
    Sys2Proof.rsv1Field (Sys2Proof.encode i) = 0 ∧ Sys2Proof.rsv0Field (Sys2Proof.encode i) = 0 ∧
    (Sys2Proof.opField (Sys2Proof.encode i)).toNat = i.opcode ∧
    (Sys2Proof.tailField (Sys2Proof.encode i)).toNat = i.tail

namespace Sys2Proof.Laws.EncodedFields

theorem nop : Statement .nop := fun _ => encode_fields (by decide)

theorem init : Statement .init := fun _ => encode_fields (by decide)

theorem compress : Statement .compress := fun _ => encode_fields (by decide)

theorem final (r : Nat) : Statement (.final r) := fun h => encode_fields (of_decide_eq_true h)

theorem format (r : Nat) : Statement (.format r) := fun h => encode_fields (of_decide_eq_true h)

theorem rawcomp : Statement .rawcomp := fun _ => encode_fields (by decide)

end Sys2Proof.Laws.EncodedFields
end

