-- ==== Sys2Proof/Laws/Window.lean ====
section
/-!
SUPPORT. The window: regions, allowed accesses, lanes, and what a write of bytes can change.
-/

namespace Sys2Proof.Machine

/-! ### Regions -/

theorem regionOf_h (o : Nat) : regionOf o = .h ↔ 0x10 ≤ o ∧ o ≤ 0x23 := by
  unfold regionOf
  repeat' split
  all_goals simp
  all_goals omega

theorem regionOf_x (o : Nat) : regionOf o = .x ↔ 0x40 ≤ o ∧ o ≤ 0x7F := by
  unfold regionOf
  repeat' split
  all_goals simp
  all_goals omega

theorem regionOf_y (o : Nat) : regionOf o = .y ↔ 0x80 ≤ o ∧ o ≤ 0xBF := by
  unfold regionOf
  repeat' split
  all_goals simp
  all_goals omega

/-- A region admits no width but 1, 2 and 4 (R36, R37). -/
theorem widths_subset (r : Region) (dir : Direction) : ∀ n ∈ r.widths dir, n = 1 ∨ n = 2 ∨ n = 4 := by
  cases r <;> cases dir <;> simp [Region.widths]

theorem allowed_width {off n : Nat} {dir : Direction} (h : allowed off n dir = true) :
    n ∈ (regionOf off).widths dir ∧ off % n = 0 := by
  simpa [allowed] using h

/-- The regions an allowed read is in. -/
theorem read_region {off n : Nat} (h : allowed off n .read = true) :
    regionOf off ≠ .reserved := by
  intro hr
  have := (allowed_width h).1
  rw [hr] at this
  simp [Region.widths] at this

/-- The regions an allowed write is in. -/
theorem write_region {off n : Nat} (h : allowed off n .write = true) :
    regionOf off = .cmd ∨ regionOf off = .status ∨ regionOf off = .h ∨ regionOf off = .x := by
  have := (allowed_width h).1
  revert this
  cases regionOf off <;> simp [Region.widths]

/-! ### Lanes (R39) -/

theorem byteOf_setByteOf (w : Word) {k k' : Nat} (b : Byte) (h : k' < 4) :
    byteOf (setByteOf w k b) k' = if k' = k then b else byteOf w k' :=
  byteOf_le32 (laneAfter w k b) h

theorem wordAt_setLane {n : Nat} (v : Vector Word n) (i o j : Nat) (b : Byte) (h : i < n) :
    wordAt (setLane v i o b) j = if j = i then setByteOf (wordAt v i) (o % 4) b else wordAt v j := by
  unfold setLane wordAt
  simp only [List.getD_eq_getElem?_getD, Vector.getElem?_toList, Vector.getElem?_setIfInBounds]
  by_cases hij : i = j
  · subst hij; simp [h]
  · rw [if_neg hij, if_neg (Ne.symm hij)]

theorem wordAt_eq {n : Nat} (v : Vector Word n) {i : Nat} (h : i < n) : wordAt v i = v[i] := by
  unfold wordAt
  simp [List.getD_eq_getElem?_getD, h]

/-! ### What a write of bytes can change -/

/-- Writing a byte changes H and X alone; outside the H window it leaves H, outside the X window it leaves X. -/
theorem setByte_frame (s : State) (o : Nat) (b : Byte) :
    (∃ h x, setByte s o b = { s with h := h, x := x }) ∧
    (regionOf o ≠ .h → (setByte s o b).h = s.h) ∧ (regionOf o ≠ .x → (setByte s o b).x = s.x) := by
  unfold setByte
  cases hr : regionOf o <;> exact ⟨⟨_, _, rfl⟩, by simp, by simp⟩

/-- Writing bytes changes H and X alone. -/
theorem writeBytes_frame (v : Word) (o k n : Nat) (s : State) :
    ∃ h x, writeBytes v o k n s = { s with h := h, x := x } := by
  induction n generalizing k s with
  | zero => exact ⟨_, _, rfl⟩
  | succ n ih =>
    obtain ⟨h, x, e⟩ := (setByte_frame s (o + k) (byteOf v k)).1
    obtain ⟨h', x', e'⟩ := ih (k + 1) (setByte s (o + k) (byteOf v k))
    exact ⟨h', x', by rw [writeBytes, e', e]⟩

/-- Writing bytes outside the H window leaves H. -/
theorem writeBytes_h (v : Word) (o k n : Nat) (s : State) (ho : ∀ j, k ≤ j → j < k + n → regionOf (o + j) ≠ .h) :
    (writeBytes v o k n s).h = s.h := by
  induction n generalizing k s with
  | zero => rfl
  | succ n ih =>
    rw [writeBytes, ih (k + 1) _ (fun j h1 h2 => ho j (by omega) (by omega)),
      (setByte_frame s (o + k) _).2.1 (ho k (by omega) (by omega))]

/-- Writing bytes outside the X window leaves X. -/
theorem writeBytes_x (v : Word) (o k n : Nat) (s : State) (ho : ∀ j, k ≤ j → j < k + n → regionOf (o + j) ≠ .x) :
    (writeBytes v o k n s).x = s.x := by
  induction n generalizing k s with
  | zero => rfl
  | succ n ih =>
    rw [writeBytes, ih (k + 1) _ (fun j h1 h2 => ho j (by omega) (by omega)),
      (setByte_frame s (o + k) _).2.2 (ho k (by omega) (by omega))]

/-! ### Transactions -/

/-- A STATUS read answers STATUS, or finds a reserved ERRCODE. -/
theorem readStatus_next {s t : State} (h : readStatus s = .next t) :
    s.status.reserved = false ∧ t = s.answer (.data s.status.word) := by
  unfold readStatus at h
  cases hr : s.status.reserved with
  | true => rw [hr] at h; cases h
  | false => rw [hr] at h; cases h; exact ⟨rfl, rfl⟩

theorem readStatus_answers {s : State} (h : s.status.reserved = false) :
    readStatus s = .next (s.answer (.data s.status.word)) := if_neg (by rw [h]; decide)

/-- What a read can do: it answers, and at most one free value is taken. -/
theorem memRead_next {off : BitVec 8} {n : Nat} {s t : State} (h : memRead off n s = .next t) :
    ∃ a, t = s.answer a ∨ t = (s.answer a).afterDraw := by
  unfold memRead at h
  split at h
  · split at h
    · exact ⟨_, .inl (readStatus_next h).2⟩
    · split at h <;> cases h
      · exact ⟨_, .inr rfl⟩
      · exact ⟨_, .inl rfl⟩
  · cases h; exact ⟨_, .inl rfl⟩

/-- What a round of polling can do: it answers STATUS and keeps or ends the loop. -/
theorem pollStatus_next {rest : List HostEvent} {s t : State} (h : pollStatus rest s = .next t) :
    ∃ inbox a, t = (s.withInbox inbox).answer a :=
  ⟨_, _, (readStatus_next h).2⟩

theorem writeWindow_of_busy {s : State} (h : s.status.busy = true) (off n : Nat) (v : Word) :
    writeWindow off n v s = .next (s.cmdError .busy) := if_pos h

theorem writeWindow_of_idle {s : State} (h : s.status.busy = false) (off n : Nat) (v : Word) :
    writeWindow off n v s = .next (writeBytes v off 0 n s) := if_neg (by rw [h]; decide)

/-- What a write can do, command words apart. -/
theorem memWrite_cases (off : BitVec 8) (n : Nat) (v : Word) (s : State) :
    (allowed off.toNat n .write = false ∧ memWrite off n v s = .done (.next (s.answer (.busError off)))) ∨
    (allowed off.toNat n .write = true ∧ regionOf off.toNat = .cmd ∧ memWrite off n v s = writeCmd v (s.answer .ok)) ∨
    (allowed off.toNat n .write = true ∧ regionOf off.toNat = .status ∧
      memWrite off n v s = .done (.next ((s.answer .ok).writeStatus v))) ∨
    (allowed off.toNat n .write = true ∧ (regionOf off.toNat = .h ∨ regionOf off.toNat = .x) ∧
      memWrite off n v s = .done (writeWindow off.toNat n v (s.answer .ok))) := by
  unfold memWrite
  cases ha : allowed off.toNat n .write with
  | false => exact .inl ⟨rfl, rfl⟩
  | true =>
    obtain hr | hr | hr | hr := write_region ha <;> rw [hr]
    · exact .inr (.inl ⟨rfl, rfl, rfl⟩)
    · exact .inr (.inr (.inl ⟨rfl, rfl, rfl⟩))
    · exact .inr (.inr (.inr ⟨rfl, .inl rfl, rfl⟩))
    · exact .inr (.inr (.inr ⟨rfl, .inr rfl, rfl⟩))

/-- A command word with no allowed width but 4 is at offset 0. -/
theorem cmd_access {off : BitVec 8} {n : Nat} (h : allowed off.toNat n .write = true)
    (hr : regionOf off.toNat = .cmd) : off = 0x00 ∧ n = 4 := by
  obtain ⟨hw, hm⟩ := allowed_width h
  rw [hr] at hw
  obtain rfl : n = 4 := by simpa [Region.widths] using hw
  have ho : off.toNat ≤ 3 := by
    revert hr
    unfold regionOf
    repeat' split
    all_goals simp
    all_goals omega
  exact ⟨BitVec.eq_of_toNat_eq (by simp; omega), rfl⟩

theorem status_access {off : BitVec 8} {n : Nat} (h : allowed off.toNat n .write = true)
    (hr : regionOf off.toNat = .status) : off = 0x04 ∧ n = 4 := by
  obtain ⟨hw, hm⟩ := allowed_width h
  rw [hr] at hw
  obtain rfl : n = 4 := by simpa [Region.widths] using hw
  have ho : 4 ≤ off.toNat ∧ off.toNat ≤ 7 := by
    revert hr
    unfold regionOf
    repeat' split
    all_goals simp
    all_goals omega
  exact ⟨BitVec.eq_of_toNat_eq (by simp; omega), rfl⟩

/-- A naturally aligned access lies in one region (R36). -/
theorem window_region {off n : Nat} (h : allowed off n .write = true) {r : Region} (hr : regionOf off = r)
    (hx : r = .h ∨ r = .x) : ∀ j < n, regionOf (off + j) = r := by
  obtain ⟨hw, hm⟩ := allowed_width h
  have hn := widths_subset _ _ _ hw
  intro j hj
  rcases hx with rfl | rfl
  · rw [regionOf_h] at hr ⊢
    rcases hn with rfl | rfl | rfl <;> omega
  · rw [regionOf_x] at hr ⊢
    rcases hn with rfl | rfl | rfl <;> omega

end Sys2Proof.Machine
end

