-- ==== Sys2Proof/Laws/Step.lean ====
section
/-!
SUPPORT. What a step is, kind by kind: a completion of the core, one of the host's events, or an idle host.
-/

namespace Sys2Proof.Machine

/-- In a host step the host's next event is done in the host's turn. -/
theorem nextMove_of_hostDoes {s : State} {e : HostEvent} (h : s.hostDoes e) :
    nextMove s = hostMove { s with turn := .host, inbox := e :: s.inbox.tail } := by
  obtain ⟨hturn, hhead⟩ := h
  have hin : e :: s.inbox.tail = s.inbox := by
    cases hs : s.inbox with
    | nil => rw [hs] at hhead; cases hhead
    | cons a l => rw [hs] at hhead; cases hhead; rfl
  rw [hin]
  have eta : s.turn = .host → hostMove s = hostMove { s with turn := .host } := fun ht =>
    congrArg hostMove (State.ext rfl rfl rfl rfl rfl rfl rfl ht rfl rfl rfl rfl)
  unfold nextMove
  cases ht : s.turn with
  | host => exact eta ht
  | core =>
    rcases hturn with hh | hp
    · rw [ht] at hh; cases hh
    · split
      · simp_all
      · rfl
      · simp_all

theorem step_of_read {s : State} {off : BitVec 8} {n : Nat} (h : s.hostDoes (.read off n)) :
    step s = afterMove (memRead off n s.hostActs) := by
  unfold step; rw [nextMove_of_hostDoes h]; rfl

theorem step_of_wait {s : State} (h : s.hostDoes .wait) :
    step s = afterMove (pollStatus s.inbox.tail s.hostActs) := by
  unfold step; rw [nextMove_of_hostDoes h]; rfl

theorem step_of_reset {s : State} (h : s.hostDoes .reset) :
    step s = .next (s.platformReset s.inbox.tail).handOver := by
  unfold step; rw [nextMove_of_hostDoes h]; rfl

theorem step_of_write {s : State} {off : BitVec 8} {n : Nat} {v : Word} (h : s.hostDoes (.write off n v)) :
    step s = match memWrite off n v s.hostActs with
      | .run i t => afterMove (exec i t)
      | .done o => afterMove o := by
  unfold step; rw [nextMove_of_hostDoes h]; rfl

/-- A 4-byte write to CMD is the word's issue, in the state with the event taken and answered. -/
theorem step_of_command {s : State} {w : Word} (h : s.hostDoes (.write 0x00 4 w)) :
    step s = match writeCmd w (s.taken .ok) with
      | .run i t => afterMove (exec i t)
      | .done o => afterMove o := by
  rw [step_of_write h]; rfl

theorem step_of_coreRuns {s : State} {i : Instr} (h : s.coreRuns i) : step s = afterMove (exec i s) := by
  unfold step nextMove; rw [h.1, h.2]

/-- An idle host lets the turn pass. -/
theorem step_of_idle {s : State} (h : s.turn = .host ∨ s.pend = none) (hi : s.inbox = []) :
    step s = .next (State.handOver { s with turn := .host }) := by
  unfold step nextMove
  cases ht : s.turn with
  | host =>
    simp only [hostMove, hi]
    show Host.Outcome.next _ = _
    exact congrArg (fun u => Host.Outcome.next (State.handOver u))
      (State.ext rfl rfl rfl rfl rfl rfl rfl ht rfl hi rfl rfl)
  | core =>
    rcases h with hh | hp
    · rw [ht] at hh; cases hh
    · simp only [hp, hostMove, hi]
      rfl

/-- The kinds of step: a completion, one of the host's events, or an idle host. -/
theorem step_kinds (s : State) :
    (∃ i, s.coreRuns i) ∨ (∃ e, s.hostDoes e) ∨ ((s.turn = .host ∨ s.pend = none) ∧ s.inbox = []) := by
  cases hi : s.inbox with
  | cons e rest =>
    cases ht : s.turn with
    | host => exact .inr (.inl ⟨e, .inl ht, by rw [hi]; rfl⟩)
    | core =>
      cases hp : s.pend with
      | none => exact .inr (.inl ⟨e, .inr hp, by rw [hi]; rfl⟩)
      | some i => exact .inl ⟨i, ht, hp⟩
  | nil =>
    cases ht : s.turn with
    | host => exact .inr (.inr ⟨.inl rfl, rfl⟩)
    | core =>
      cases hp : s.pend with
      | none => exact .inr (.inr ⟨.inr rfl, rfl⟩)
      | some i => exact .inl ⟨i, ht, hp⟩

/-- A step that hands over `u` goes to `u` but for the model's own fields. -/
theorem stepsTo_of_handOver {s u : State} (h : step s = .next u.handOver) : s.stepsTo u :=
  ⟨u.turnAfter, u.delayAfter, u.draws, h⟩

/-! ### The kinds exclude one another -/

theorem hostDoes_unique {s : State} {e e' : HostEvent} (h : s.hostDoes e) (h' : s.hostDoes e') : e = e' :=
  Option.some.inj (h.2.symm.trans h'.2)

theorem coreRuns_unique {s : State} {i i' : Instr} (h : s.coreRuns i) (h' : s.coreRuns i') : i = i' :=
  Option.some.inj (h.2.symm.trans h'.2)

theorem not_coreRuns {s : State} (h : s.turn = .host ∨ s.pend = none) (i : Instr) : ¬ s.coreRuns i := by
  rintro ⟨ht, hp⟩
  rcases h with h | h
  · rw [ht] at h; cases h
  · rw [hp] at h; cases h

theorem not_hostDoes {s : State} {i : Instr} (h : s.coreRuns i) (e : HostEvent) : ¬ s.hostDoes e :=
  fun h' => not_coreRuns h'.1 i h

/-- What a step that answers can be, once for all proofs about steps. -/
theorem step_cases {s t : State} (h : step s = .next t) :
    -- the core completes the pending command
    (∃ i, s.coreRuns i ∧ t = (completed i s).finish.handOver) ∨
    -- the platform resets the core
    (s.hostDoes .reset ∧ t = (s.platformReset s.inbox.tail).handOver) ∨
    -- no register changes: an idle host, a read, a `wait`, a bus error, a NOP
    (∃ u, s.sameRegisters u ∧ u.work = s.work ∧ u.delay = s.delay ∧ (s.turn = .host ∨ s.pend = none) ∧
      ¬ s.hostDoes .reset ∧ (∀ e ∈ u.inbox, e ∈ s.inbox) ∧ t = u.handOver) ∨
    -- a command or a write is rejected
    (∃ off n v c, s.hostDoes (.write off n v) ∧ t = ((s.taken .ok).cmdError c).handOver) ∨
    -- a command is accepted
    (∃ w i, s.hostDoes (.write 0x00 4 w) ∧ decode w = .command i ∧ s.status.busy = false ∧ i.isPendable = true ∧
      (i = .compress → s.status.done = false ∧ s.blkcnt.toNat ≠ maxMessageBlocks) ∧
      ((∃ r, i = .final r ∨ i = .format r) → s.status.done = false) ∧
      t = ((s.taken .ok).accept i).handOver) ∨
    -- STATUS is written
    (∃ v, s.hostDoes (.write 0x04 4 v) ∧ t = ((s.taken .ok).writeStatus v).handOver) ∨
    -- bytes of H or X are written
    (∃ off n v, s.hostDoes (.write off n v) ∧ allowed off.toNat n .write = true ∧ s.status.busy = false ∧
      (regionOf off.toNat = .h ∨ regionOf off.toNat = .x) ∧
      t = (writeBytes v off.toNat 0 n (s.taken .ok)).handOver) := by
  have notReset : ∀ {e : HostEvent}, s.hostDoes e → e ≠ .reset → ¬ s.hostDoes .reset := fun h hne h' =>
    hne (hostDoes_unique h h')
  have tail_sub : ∀ e ∈ s.inbox.tail, e ∈ s.inbox := fun e he => List.mem_of_mem_tail he
  obtain ⟨i, hi⟩ | ⟨e, he⟩ | ⟨hturn, hin⟩ := step_kinds s
  · rw [step_of_coreRuns hi, exec_core hi.1] at h
    cases h
    exact .inl ⟨i, hi, rfl⟩
  · cases e with
    | reset =>
      rw [step_of_reset he] at h
      cases h
      exact .inr (.inl ⟨he, rfl⟩)
    | wait =>
      rw [step_of_wait he] at h
      obtain ⟨u, hu, rfl⟩ := afterMove_next h
      have hs := (readStatus_next hu).2
      refine .inr (.inr (.inl ⟨u, ?_, ?_, ?_, he.1, notReset he (by simp), ?_, rfl⟩))
      · rw [hs]; exact ⟨rfl, rfl, rfl, rfl, rfl, rfl⟩
      · rw [hs]; rfl
      · rw [hs]; rfl
      · have hmem : HostEvent.wait ∈ s.inbox := List.mem_of_head? he.2
        rw [hs]
        intro e hm
        simp only [State.answer_inbox, State.withInbox_inbox] at hm
        split at hm
        · rcases List.mem_cons.1 hm with rfl | hm
          · exact hmem
          · exact tail_sub e hm
        · exact tail_sub e hm
    | read off n =>
      rw [step_of_read he] at h
      obtain ⟨u, hu, rfl⟩ := afterMove_next h
      refine .inr (.inr (.inl ⟨u, ?_, ?_, ?_, he.1, notReset he (by simp), ?_, rfl⟩)) <;>
        obtain ⟨a, rfl | rfl⟩ := memRead_next hu
      · exact ⟨rfl, rfl, rfl, rfl, rfl, rfl⟩
      · exact ⟨rfl, rfl, rfl, rfl, rfl, rfl⟩
      · rfl
      · rfl
      · rfl
      · rfl
      · exact tail_sub
      · exact tail_sub
    | write off n v =>
      rw [step_of_write he] at h
      obtain ⟨-, hm⟩ | ⟨ha, hr, hm⟩ | ⟨ha, hr, hm⟩ | ⟨ha, hr, hm⟩ := memWrite_cases off n v s.hostActs
      · rw [hm] at h
        cases h
        exact .inr (.inr (.inl ⟨s.taken (.busError off), ⟨rfl, rfl, rfl, rfl, rfl, rfl⟩, rfl, rfl, he.1, notReset he (by simp), tail_sub, rfl⟩))
      · obtain ⟨rfl, rfl⟩ := cmd_access ha hr
        rw [hm, State.hostActs_answer] at h
        unfold writeCmd at h
        cases hd : decode v with
        | illegal why =>
          rw [hd] at h
          obtain ⟨u, hu, rfl⟩ := afterMove_next h
          obtain ⟨-, rfl⟩ | ⟨-, hu⟩ := unlessBusy_next hu
          · exact .inr (.inr (.inr (.inl ⟨_, _, _, _, he, rfl⟩)))
          · cases hu
            exact .inr (.inr (.inr (.inl ⟨_, _, _, _, he, rfl⟩)))
        | command i =>
          rw [hd] at h
          obtain ⟨u, hu, rfl⟩ := afterMove_next h
          obtain ⟨-, rfl⟩ | ⟨c, -, rfl⟩ | ⟨hb, rfl, hp, hc, hf⟩ := exec_host_next (s := s.taken .ok) rfl hu
          · exact .inr (.inr (.inl ⟨s.taken .ok, ⟨rfl, rfl, rfl, rfl, rfl, rfl⟩, rfl, rfl, he.1, notReset he (by simp), tail_sub, rfl⟩))
          · exact .inr (.inr (.inr (.inl ⟨_, _, _, _, he, rfl⟩)))
          · exact .inr (.inr (.inr (.inr (.inl ⟨v, i, he, hd, hb, hp, hc, hf, rfl⟩))))
      · obtain ⟨rfl, rfl⟩ := status_access ha hr
        rw [hm] at h
        cases h
        exact .inr (.inr (.inr (.inr (.inr (.inl ⟨v, he, rfl⟩)))))
      · rw [hm, State.hostActs_answer] at h
        obtain ⟨u, hu, rfl⟩ := afterMove_next h
        cases hb : s.status.busy with
        | true =>
          rw [writeWindow_of_busy (s := s.taken .ok) hb] at hu
          cases hu
          exact .inr (.inr (.inr (.inl ⟨_, _, _, _, he, rfl⟩)))
        | false =>
          rw [writeWindow_of_idle (s := s.taken .ok) hb] at hu
          cases hu
          exact .inr (.inr (.inr (.inr (.inr (.inr ⟨off, n, v, he, ha, rfl, hr, rfl⟩)))))
  · rw [step_of_idle hturn hin] at h
    cases h
    have notReset' : ¬ s.hostDoes .reset := fun h => by have := h.2; rw [hin] at this; cases this
    exact .inr (.inr (.inl ⟨{ s with turn := .host }, ⟨rfl, rfl, rfl, rfl, rfl, rfl⟩, rfl, rfl, hturn, notReset', fun _ he => he, rfl⟩))

end Sys2Proof.Machine
end

