-- ==== Sys2Proof/Machine/HostProgram.lean ====
section
/-!
DEFINITION. The host's assembler syntax as events (30_encoding.md R56, R57) and the host's procedure for a message
(42_driver.md R91).
-/

namespace Sys2Proof.Machine

/-- `sw off, value` (R56). -/
def sw (off : BitVec 8) (v : Word) : HostEvent := .write off 4 v

/-- `sh off, value` (R56). -/
def sh (off : BitVec 8) (v : BitVec 16) : HostEvent := .write off 2 (v.zeroExtend 32)

/-- `sb off, value` (R56). -/
def sb (off : BitVec 8) (v : Byte) : HostEvent := .write off 1 (v.zeroExtend 32)

/-- `lw off` (R56). -/
def lw (off : BitVec 8) : HostEvent := .read off 4

/-- `lh off` (R56). -/
def lh (off : BitVec 8) : HostEvent := .read off 2

/-- `lb off` (R56). -/
def lb (off : BitVec 8) : HostEvent := .read off 1

/-- A command mnemonic on its own: `sw 0x00, <command word>` (R56, R57). -/
def command (i : Instr) : HostEvent := sw 0x00 (encode i)

/-- `clrerr` (R57). -/
def clrerr : HostEvent := sw 0x04 0x00000002

/-- Writes of words to consecutive word offsets. -/
def storeWords (off : BitVec 8) : List Word → List HostEvent
  | [] => []
  | w :: ws => sw off w :: storeWords (off + 4) ws

/-- Bytes followed by zeros up to a multiple of four. -/
def zeroFilled (bytes : List Byte) : List Byte := bytes ++ List.replicate ((4 - bytes.length % 4) % 4) 0

/-- `ldblk` and `ldtail`: bytes to X from its offset 0 on; bytes past the tail in its last word are 0 (R57). -/
def ldtail (bytes : List Byte) : List HostEvent := storeWords 0x40 (bytesToWords (zeroFilled bytes))

/-- `ldstate h0..h4` (R57). -/
def ldstate (h : Chain) : List HostEvent := storeWords 0x10 h.toList

/-- `rddigest`: five reads of the H window (R57). -/
def rddigest : List HostEvent := [lw 0x10, lw 0x14, lw 0x18, lw 0x1C, lw 0x20]

/-- Step 2 of R91 for one full block. -/
def hostBlock (bytes : List Byte) : List HostEvent := ldtail bytes ++ [command .compress, .wait]

/-- The host's procedure for a message (R91). -/
def hostProcedure (m : List Byte) : List HostEvent :=
  [command .init, .wait]
    ++ (List.range (m.length / 64)).flatMap (fun i => hostBlock ((m.drop (64 * i)).take 64))
    ++ ldtail (m.drop (64 * (m.length / 64))) ++ [command (.final (m.length % 64)), .wait]
    ++ rddigest

end Sys2Proof.Machine
end

