-- ==== Sys2Proof/Tests/Slice0.lean ====
section
/-!
SUPPORT. The model's own tests: expected values from the spec (95_test_vectors.md unless a comment names another file),
one step or one function each; then a witness for the hypotheses of every statement that has any.
-/

namespace Sys2Proof.Tests

open Sys2Proof.Machine

/-! ### States to start from -/

/-- A block of zero words. -/
def zeroBlock : Block := Vector.replicate 16 0

/-- Five zero words. -/
def zeroChain : Chain := Vector.replicate 5 0

/-- An idle core of zeros, the host having nothing to do. -/
def idle : State :=
  { h := zeroChain, x := zeroBlock, y := zeroBlock, status := Status.reset, blkcnt := 0, pend := none,
    work := Work.start zeroChain, turn := .host, delay := 0, inbox := [], answers := [], draws := 0 }

/-- An idle core after a finished hash. -/
def done : State := { idle with status := { Status.reset with done := true } }

/-- An idle core at the length limit (60_exceptions.md R105). -/
def full : State := { idle with blkcnt := 0x03FFFFFF }

/-- A core with a command pending, in the host's turn. -/
def busy (i : Instr) : State :=
  { idle with pend := some i, delay := 1, status := { Status.reset with busy := true } }

/-- A core about to complete a command. -/
def due (i : Instr) : State := { busy i with turn := .core, delay := 0 }

/-- A host with one event to do. -/
def doing (e : HostEvent) (s : State) : State := { s with inbox := [e] }

/-- What a field is in the next state, if there is one. -/
def seen {α : Type} (f : State → α) : Result → Option α
  | .next t => some (f t)
  | .fault _ => none
  | .refused _ => none

/-- The STATUS word in the next state. -/
def statusOf : Result → Option Word := seen fun t => t.status.word

/-! ### Well-formed commands (30_encoding.md R51) -/

theorem test_wellFormed_final_64_refused : (Instr.final 64).wellFormed = false := by decide
theorem test_wellFormed_final_63 : (Instr.final 63).wellFormed = true := by decide
theorem test_wellFormed_format_64_refused : (Instr.format 64).wellFormed = false := by decide
theorem test_wellFormed_format_0 : (Instr.format 0).wellFormed = true := by decide

/-! ### Decoding, the words written out bit by bit from R50 and R55 -/

theorem test_decode_nop : decode 0b00000000000000000000000000000000 = .command .nop := by decide
theorem test_decode_init : decode 0b00000000000000000000000000000001 = .command .init := by decide
theorem test_decode_compress : decode 0b00000000000000000000000000000010 = .command .compress := by decide
theorem test_decode_final_62 : decode 0b00000000000000000011111000000011 = .command (.final 62) := by decide
theorem test_decode_final_63 : decode 0x00003F03 = .command (.final 63) := by decide
theorem test_decode_format_56 : decode 0b00000000000000000011100000000100 = .command (.format 56) := by decide
theorem test_decode_format_32 : decode 0x00002004 = .command (.format 32) := by decide
theorem test_decode_rawcomp : decode 0b00000000000000000000000000000101 = .command .rawcomp := by decide
theorem test_decode_reserved_opcode : decode 0x0000000F = .illegal .reservedOpcode := by decide
theorem test_decode_rawcomp_with_tail : decode 0x00003F05 = .illegal .tailNotTaken := by decide
theorem test_decode_bit_7 : decode 0x00000080 = .illegal .rsv0Set := by decide
theorem test_decode_bit_31 : decode 0x80000002 = .illegal .rsv1Set := by decide
theorem test_decodeBytes_order : decodeBytes [0x03, 0x3A, 0x00, 0x00, 0xFF] = (.command (.final 58), [0xFF]) := by
  decide
theorem test_decodeTableWord_final_3 : decodeTableWord 32 0x00000303 = some (.final 3) := by decide
theorem test_decodeTableWord_init_tail : decodeTableWord 32 0x00000101 = none := by decide
theorem test_encode_final_3 : encode (.final 3) = 0x00000303 := by decide
theorem test_encode_format_56 : encode (.format 56) = 0x00003804 := by decide

/-! ### A command word runs as the very next step -/

theorem test_step_runs_nop : ∃ t, step (State.reset.withFetchWord 32 0x00000000) = .next t ∧ t.pend = none :=
  ⟨_, rfl, rfl⟩
theorem test_step_runs_init : ∃ t, step (State.reset.withFetchWord 32 0x00000001) = .next t ∧ t.pend = some .init :=
  ⟨_, rfl, rfl⟩
theorem test_step_runs_compress :
    ∃ t, step (State.reset.withFetchWord 32 0x00000002) = .next t ∧ t.pend = some .compress := ⟨_, rfl, rfl⟩
theorem test_step_runs_final :
    ∃ t, step (State.reset.withFetchWord 32 0x00003E03) = .next t ∧ t.pend = some (.final 62) := ⟨_, rfl, rfl⟩
theorem test_step_runs_format :
    ∃ t, step (State.reset.withFetchWord 32 0x00003804) = .next t ∧ t.pend = some (.format 56) := ⟨_, rfl, rfl⟩
theorem test_step_runs_rawcomp :
    ∃ t, step (State.reset.withFetchWord 32 0x00000005) = .next t ∧ t.pend = some .rawcomp := ⟨_, rfl, rfl⟩

/-! ### Compression core -/

/-- T-FN-F, T-FN-G, T-FN-H, T-FN-I, T-FN-J, first column. -/
theorem test_functions :
    boolF 0xF0F0F0F0 0xCCCCCCCC 0xAAAAAAAA = 0x96969696 ∧ boolG 0xF0F0F0F0 0xCCCCCCCC 0xAAAAAAAA = 0xCACACACA ∧
    boolH 0xF0F0F0F0 0xCCCCCCCC 0xAAAAAAAA = 0x59595959 ∧ boolI 0xF0F0F0F0 0xCCCCCCCC 0xAAAAAAAA = 0xE4E4E4E4 ∧
    boolJ 0xF0F0F0F0 0xCCCCCCCC 0xAAAAAAAA = 0x2D2D2D2D := by decide

/-- T-ROL-1, T-ROL-3, T-ROL-5. -/
theorem test_rol32 :
    rol32 0x80000001 10 = 0x00000600 ∧ rol32 0x12345678 15 = 0x2B3C091A ∧ rol32 0x00000001 31 = 0x80000000 := by
  decide

/-- T-STEP-1. -/
theorem test_left_step_0 :
    leftStep zeroBlock 0 (Line.ofChain iv) = ⟨0xC3D2E1F0, 0x1602F864, 0xEFCDAB89, 0xEB73FA62, 0x10325476⟩ := by decide

/-- T-STEP-2: the first constant of the right line (90_conflicts.md C1). -/
theorem test_right_step_0 :
    rightStep zeroBlock 0 (Line.ofChain iv) = ⟨0xC3D2E1F0, 0xDDD63FB8, 0xEFCDAB89, 0xEB73FA62, 0x10325476⟩ := by decide

/-- The padded block of "abc" (T-PAD-3). -/
def abcBlock : Block := #v[0x80636261, 0, 0, 0, 0, 0, 0, 0, 0, 0, 0, 0, 0, 0, 0x00000018, 0]

/-- T-LINE, the rows j = 31 and j = 79 (left line and right line). -/
theorem test_line_trace :
    ((Work.start iv).steps abcBlock 32).left = ⟨0x287F668C, 0x2D30FA02, 0xB6A665C6, 0x8477BBDC, 0x8ACC6EF6⟩ ∧
    (runLines iv abcBlock).right = ⟨0x81D4727D, 0x5FCCBADE, 0xBF627814, 0xFC0E2B04, 0x739C4C7A⟩ := by decide +kernel

/-- T-CMP-4: all sixteen words distinct. -/
theorem test_compress_distinct_words :
    compress iv #v[0, 1, 2, 3, 4, 5, 6, 7, 8, 9, 10, 11, 12, 13, 14, 15] =
      #v[0xADDECDB1, 0x583CD1D3, 0x14BA1875, 0x9759865C, 0x392A0539] := by decide +kernel

/-- T-CMP-3: every sum wraps. -/
theorem test_compress_all_ones :
    compress (Vector.replicate 5 0xFFFFFFFF) (Vector.replicate 16 0xFFFFFFFF) =
      #v[0xF282655D, 0xD3828CF1, 0x4FE5E0C5, 0xA3892B3E, 0xD14F6FCE] := by decide +kernel

/-! ### Formatter and codec -/

/-- T-PAD-9: the high length word of a message of 2^29 bytes is 1 (90_conflicts.md C2). -/
theorem test_format_length_high : (fmtFirst (2 ^ 23) 0 zeroBlock)[14] = 0 ∧ (fmtFirst (2 ^ 23) 0 zeroBlock)[15] = 1 := by
  decide +kernel

/-- T-PAD-10: the largest length, 0x80 in byte 63, over a tail of ones. -/
theorem test_format_largest :
    (fmtFirst (2 ^ 26 - 1) 63 (Vector.replicate 16 0xFFFFFFFF))[15] = 0x80FFFFFF ∧
    (fmtSecond (2 ^ 26 - 1) 63)[14] = 0xFFFFFFF8 ∧ (fmtSecond (2 ^ 26 - 1) 63)[15] = 7 := by decide +kernel

/-- T-SRC-1: the hash of the empty message. -/
theorem test_hash_empty :
    Machine.hash [] = [0x9C, 0x11, 0x85, 0xA5, 0xC5, 0xE9, 0xFC, 0x54, 0x61, 0x28, 0x08, 0x97, 0x7E, 0xE8, 0xF5, 0x48,
      0xB2, 0x25, 0x8D, 0x31] := by decide +kernel

/-- T-CODEC-1, T-CODEC-2. -/
theorem test_codec :
    bytesToWords [0x61, 0x62, 0x63, 0x80] = [0x80636261] ∧ wordsToBytes [0x67452301] = [0x01, 0x23, 0x45, 0x67] := by
  decide

/-! ### Commands -/

/-- T-ENC-1 with 42_driver.md R86: idle, NOP changes nothing. -/
theorem test_nop_idle : statusOf (step (doing (command .nop) done)) = some 0x4 := by decide

/-- 42_driver.md R86: while busy NOP is rejected. -/
theorem test_nop_busy : statusOf (step (doing (command .nop) (busy .init))) = some 0x203 := by decide

/-- T-DRV-1. -/
theorem test_init_loads_iv :
    seen State.h (step (due .init)) = some #v[0x67452301, 0xEFCDAB89, 0x98BADCFE, 0x10325476, 0xC3D2E1F0] := by decide

/-- T-ERR-17: DONE does not block INIT. -/
theorem test_init_after_done : statusOf (step (doing (command .init) done)) = some 0x5 := by decide

/-- T-DRV-10: the block of 64 bytes 'a'. -/
theorem test_compress_counts_block :
    seen (fun t => (t.h, t.blkcnt, t.status.word))
        (step { due .compress with h := iv, x := Vector.replicate 16 0x61616161 }) =
      some (#v[0xD42339F0, 0xCE5B9F6F, 0x2874A075, 0xDF67AAF1, 0xC6C1BE1C], 1, 0x0) := by decide +kernel

/-- T-ERR-12. -/
theorem test_compress_too_large : statusOf (step (doing (command .compress) full)) = some 0x402 := by decide

/-- T-DRV-8: FINAL 3 of "abc", stale bytes past the tail. -/
theorem test_final_abc :
    seen (fun t => (t.h, t.blkcnt, t.status.word))
        (step { due (.final 3) with h := iv, x := Vector.replicate 16 0xFF636261 }) =
      some (#v[0xF708B28E, 0x7A985DE0, 0x8E4A049B, 0x87B0C698, 0xFC0B5AF1], 1, 0x4) := by decide +kernel

/-- T-SRC-4's tail in X (program P2). -/
def alphanumericTail : Block :=
  #v[0x44434241, 0x48474645, 0x4C4B4A49, 0x504F4E4D, 0x54535251, 0x58575655, 0x62615A59, 0x66656463,
     0x6A696867, 0x6E6D6C6B, 0x7271706F, 0x76757473, 0x7A797877, 0x33323130, 0x37363534, 0x00003938]

/-- T-DRV-7: FINAL 62, two trailer blocks. -/
theorem test_final_two_blocks :
    seen (fun t => (t.h, t.blkcnt, t.status.word)) (step { due (.final 62) with h := iv, x := alphanumericTail }) =
      some (#v[0x6E0BE2B0, 0x02641631, 0x873AED86, 0x793071A5, 0x89511FB2], 2, 0xC) := by decide +kernel

/-- T-PAD-5: FORMAT 62. -/
theorem test_format_two_blocks :
    seen (fun t => (t.x[15], t.y[14], t.status.word)) (step { due (.format 62) with x := alphanumericTail }) =
      some (0x00803938, 0x000001F0, 0x8) := by decide +kernel

/-- Program P6's last line: FORMAT after FINAL. -/
theorem test_format_after_done : statusOf (step (doing (command (.format 32)) done)) = some 0x306 := by decide

/-- T-CMP-1. -/
theorem test_rawcomp_zeros :
    seen (fun t => (t.h, t.blkcnt)) (step (due .rawcomp)) =
      some (#v[0x6BB9FE69, 0x3D09C7C0, 0x48ED6A0E, 0x7D117C5D, 0xADC8E12D], 0) := by decide +kernel

/-- T-ERR-16: DONE does not block RAWCOMP. -/
theorem test_rawcomp_after_done : statusOf (step (doing (command .rawcomp) done)) = some 0x5 := by decide

/-! ### Transactions -/

/-- T-CODEC-5. -/
theorem test_read_half :
    seen State.answers (step (doing (lh 0x42) { idle with x := abcBlock })) = some [.data 0x8063] := by decide

/-- T-CODEC-7. -/
theorem test_write_byte :
    seen (fun t => t.x[0]) (step (doing (sb 0x41 0xAA) { idle with x := abcBlock })) = some 0x8063AA61 := by decide

/-- T-ERR-4, T-ERR-7: BusError, STATUS unchanged. -/
theorem test_bus_errors :
    seen State.answers (step (doing (sw 0x80 0) done)) = some [.busError 0x80] ∧
    seen State.answers (step (doing (lw 0x42) done)) = some [.busError 0x42] ∧
    statusOf (step (doing (sw 0x80 0) done)) = some 0x4 := by decide

/-- T-ERR-9: a write while busy is answered normally and discarded. -/
theorem test_write_busy :
    seen (fun t => (t.status.word, t.x[1], t.answers)) (step (doing (sw 0x44 0x12345678) (busy .init))) =
      some (0x203, 0, [.ok]) := by decide

/-- STATUS 0x106, as after T-ERR-2. -/
def illegalSeen : State := { done with status := { done.status with err := true, errCode := 1 } }

/-- T-ERR-14, T-ERR-15. -/
theorem test_acknowledge :
    statusOf (step (doing clrerr illegalSeen)) = some 0x4 ∧
    statusOf (step (doing (sw 0x04 0xFFFFFFFD) illegalSeen)) = some 0x106 := by decide

/-- 30_encoding.md R57: `wait` ends when BUSY = 0 and repeats while it is 1. -/
theorem test_wait :
    seen State.inbox (step (doing .wait idle)) = some [] ∧
    seen State.inbox (step (doing .wait (busy .init))) = some [.wait] := by decide

/-- A reserved ERRCODE stops a STATUS read (93_implementation_defined.md U6). -/
theorem test_reserved_errCode :
    (match step (doing (lw 0x04) { idle with status := { Status.reset with err := true, errCode := 5 } }) with
      | .fault .reservedErrCode => true
      | .next _ => false
      | .refused _ => false) = true := by decide

/-! ### Witnesses: states and operands that meet the hypotheses of the statements -/

/-- The host's next event is done when it is the host's turn. -/
theorem doing_does (e : HostEvent) {s : State} (h : s.turn = .host) : (doing e s).hostDoes e := ⟨.inl h, rfl⟩

theorem due_runs (i : Instr) : (due i).coreRuns i := ⟨rfl, rfl⟩

theorem inv_idle : idle.Inv :=
  ⟨rfl, (fun _ h => by cases h), by decide, by decide, fun _ => by decide, by decide, by decide, by decide⟩

theorem inv_done : done.Inv :=
  ⟨rfl, (fun _ h => by cases h), by decide, by decide, fun _ => by decide, by decide, by decide, by decide⟩

theorem inv_busy_compress : (busy .compress).Inv :=
  ⟨rfl, fun i h => by cases h; exact ⟨rfl, rfl, rfl, by decide⟩, by decide, by decide, fun _ => by decide, by decide,
    by decide, by decide⟩

theorem inv_due_final : (due (.final 63)).Inv :=
  ⟨rfl, fun i h => by cases h; exact ⟨rfl, rfl, rfl⟩, by decide, by decide, fun _ => by decide, by decide,
    fun _ => rfl, by decide⟩

/-- FORMAT 63 pending at the largest length. -/
def longest : State := { busy (.format 63) with blkcnt := 0x03FFFFFF }

theorem inv_longest : longest.Inv :=
  ⟨rfl, fun i h => by cases h; exact ⟨rfl, rfl, rfl⟩, by decide, by decide, fun _ => by decide, by decide,
    by decide, by decide⟩

theorem witness_DecodeOfEncode :
    (Instr.final 63).wellFormed = true ∧ (Instr.format 0).wellFormed = true ∧ Instr.nop.wellFormed = true := by decide

theorem witness_EncodeOfDecode :
    decode 0x00003F03 = .command (.final 63) ∧ decode 0x00000000 = .command .nop := by decide

theorem witness_DecoderMatchesOpcodeTable :
    (∀ row ∈ opcodeTable, (0x00000006 : Word) &&& row.mask ≠ row.pattern) ∧
    ((0x00003F04 : Word) &&& 0xFFFFC0FF = 0x00000004) := by decide

theorem witness_IllegalWordIsRejected :
    (doing (sw 0x00 0x00000006) idle).hostDoes (.write 0x00 4 0x00000006) ∧
    (doing (sw 0x00 0x00000006) idle).status.busy = false ∧ (∃ why, decode 0x00000006 = .illegal why) :=
  ⟨doing_does _ rfl, rfl, .reservedOpcode, by decide⟩

theorem witness_StepRunsDecodedCommand :
    (doing (command (.final 63)) idle).hostDoes (.write 0x00 4 0x00003F03) ∧
    decode 0x00003F03 = .command (.final 63) := ⟨doing_does _ rfl, by decide⟩

theorem witness_StepRunsPendingCommand : (due .rawcomp).coreRuns .rawcomp := due_runs _

theorem witness_IssueChecksInOrder :
    (doing (command .compress) full).hostDoes (.write 0x00 4 0x00000002) ∧
    (doing (command .compress) (busy .init)).hostDoes (.write 0x00 4 0x00000002) := ⟨doing_does _ rfl, doing_does _ rfl⟩

/-- NOP, INIT and RAWCOMP: idle, busy, and about to complete. -/
theorem witness_NopDoesNothing_InitLoadsIv_RawcompCompresses :
    (idle.turn = .host ∧ idle.status.busy = false) ∧ ((busy .init).turn = .host ∧ (busy .init).status.busy = true) ∧
    (due .init).turn = .core ∧ (due .rawcomp).turn = .core ∧
    ((0x00000010 : Word).extractLsb 3 0 = 0 ∧ (0x00000010 : Word) ≠ 0) := by decide

/-- COMPRESS: busy, after a finished hash, at the limit, just below it, and about to complete. -/
theorem witness_CompressAbsorbsBlock :
    ((busy .init).turn = .host ∧ (busy .init).status.busy = true) ∧
    (done.turn = .host ∧ done.status.busy = false ∧ done.status.done = true) ∧
    (full.turn = .host ∧ full.status.busy = false ∧ full.status.done = false ∧ full.blkcnt.toNat = 2 ^ 26 - 1) ∧
    ({ full with blkcnt := 0x03FFFFFE }.turn = .host ∧ { full with blkcnt := 0x03FFFFFE }.status.busy = false ∧
      { full with blkcnt := 0x03FFFFFE }.status.done = false ∧
      { full with blkcnt := 0x03FFFFFE }.blkcnt.toNat ≠ 2 ^ 26 - 1) ∧
    (due .compress).turn = .core := by decide

/-- FINAL and FORMAT: busy, after a finished hash, idle, and about to complete with 55 and with 56 bytes. -/
theorem witness_FinalPadsAndCompresses_FormatWritesTrailerBlocks :
    (0 ≤ 63 ∧ 63 ≤ 63) ∧ ((busy .init).turn = .host ∧ (busy .init).status.busy = true) ∧
    (done.turn = .host ∧ done.status.busy = false ∧ done.status.done = true) ∧
    (idle.turn = .host ∧ idle.status.busy = false ∧ idle.status.done = false) ∧
    ((due (.final 55)).turn = .core ∧ 55 ≤ 55) ∧ ((due (.final 56)).turn = .core ∧ 56 ≤ 56) ∧
    (due (.format 63)).turn = .core := by decide

theorem witness_IssueOnlyRejectsOrAccepts :
    (idle.turn = .host ∧ ∃ t, exec .nop idle = .next t) ∧ (done.turn = .host ∧ ∃ t, exec .compress done = .next t) ∧
    (idle.turn = .host ∧ ∃ t, exec (.final 63) idle = .next t) :=
  ⟨⟨rfl, _, rfl⟩, ⟨rfl, _, rfl⟩, rfl, _, rfl⟩

theorem witness_SequenceAfterDone : done.turn = .host ∧ done.status.busy = false ∧ done.status.done = true := by decide

theorem witness_InputTooLargeIsRefused :
    (full.turn = .host ∧ full.status.busy = false ∧ full.status.done = false ∧ full.blkcnt.toNat = 2 ^ 26 - 1) ∧
    longest.Inv ∧ (longest.pend = some (.final 63) ∨ longest.pend = some (.format 63)) :=
  ⟨by decide, inv_longest, .inr rfl⟩

/-- Bits, rounds, tables and rotates at both ends of their ranges. -/
theorem witness_BooleanFunctionsBitwise_RoundFunctionsAndConstants_RotateMovesBits :
    (0 < 32 ∧ 31 < 32) ∧ (0 < 80 ∧ 15 < 16 ∧ 79 < 80) ∧ (1 ≤ 1 ∧ 1 ≤ 31) ∧ (1 ≤ 31 ∧ 31 ≤ 31) := by decide

theorem witness_LengthWords : 2 ^ 32 - 1 ≤ 2 ^ 32 - 1 ∧ 0 < 8 ∧ 7 < 8 := by decide

/-- A message of 0, 55, 56 and 64 bytes. -/
theorem witness_PadBlockCount_PadShape :
    ([] : List Byte).length ≤ 2 ^ 32 - 1 ∧ (List.replicate 55 (0x61 : Byte)).length ≤ 55 ∧
    56 ≤ (List.replicate 56 (0x61 : Byte)).length ∧ (List.replicate 64 (0x61 : Byte)).length ≤ 64 := by decide

/-- A message of the largest length. -/
theorem witness_PadBlockCount_longest : (List.replicate (2 ^ 32 - 1) (0x61 : Byte)).length = 2 ^ 32 - 1 :=
  List.length_replicate

/-- The formatter's clauses: no tail word, a tail of 55 and of 56 bytes, the largest length. -/
theorem witness_FormatterWordByWord :
    (2 ^ 26 - 1 ≤ 2 ^ 26 - 1 ∧ 63 ≤ 63) ∧ ((0 : Fin 16).val = 0 / 4) ∧ (0 < 55 / 4 ∧ 55 ≤ 55) ∧
    (56 / 4 < (15 : Fin 16).val ∧ 56 ≤ 56) ∧ (55 / 4 ≤ 13 ∧ (13 : Fin 16).val ≤ 13) := by decide

/-- Two blocks that agree on the first byte alone. -/
theorem witness_FormatterIgnoresPastTail :
    1 ≤ 63 ∧ (∀ k < 1, blockByte (zeroBlock.set 0 0xFFFFFF61) k = blockByte (zeroBlock.set 0 0x00000061) k) ∧
    zeroBlock.set 0 0xFFFFFF61 ≠ zeroBlock.set 0 0x00000061 := by decide

theorem witness_FormatTwiceSameBlocks : 63 ≤ 63 ∧ 62 < 63 := by decide

/-- "abc" with its tail in X, one trailer block. -/
theorem witness_FormatterAgreesWithPad_one :
    let m : List Byte := [0x61, 0x62, 0x63]
    m.length ≤ 2 ^ 32 - 1 ∧
    ∀ k < m.length % 64, m[64 * (m.length / 64) + k]? = some (blockByte (zeroBlock.set 0 0xFF636261) k) := by decide

/-- 56 bytes 'a' with their tail in X, two trailer blocks. -/
theorem witness_FormatterAgreesWithPad_two :
    let m : List Byte := List.replicate 56 0x61
    m.length ≤ 2 ^ 32 - 1 ∧
    ∀ k < m.length % 64, m[64 * (m.length / 64) + k]? = some (blockByte (Vector.replicate 16 0x61616161) k) := by
  decide +kernel

/-- 64 bytes 'a', the block of T-DRV-10, nothing absorbed yet. -/
theorem witness_CompressExtendsAbsorbedMessage :
    let m : List Byte := List.replicate 64 0x61
    let s : State := { due .compress with h := iv, x := Vector.replicate 16 0x61616161 }
    s.turn = .core ∧ 64 * (0 + 1) ≤ m.length ∧ m.length ≤ 2 ^ 32 - 1 ∧
    s.h = compressAll iv ((List.range 0).map (blockAt m)) ∧ s.blkcnt.toNat = 0 ∧ s.x = blockAt m 0 := by decide +kernel

/-- "abc" with nothing absorbed and its tail in X. -/
theorem witness_FinalYieldsHash :
    let m : List Byte := [0x61, 0x62, 0x63]
    let s : State := { due (.final 3) with h := iv, x := zeroBlock.set 0 0x00636261 }
    s.turn = .core ∧ m.length ≤ 2 ^ 32 - 1 ∧
    s.h = compressAll iv ((List.range (m.length / 64)).map (blockAt m)) ∧ s.blkcnt.toNat = m.length / 64 ∧
    ∀ k < m.length % 64, m[64 * (m.length / 64) + k]? = some (blockByte s.x k) := by decide +kernel

theorem witness_BytesToWords : ([0x61, 0x62, 0x63, 0x80] : List Byte).length = 4 * 1 ∧ 0 < 1 := by decide

theorem witness_CodecInverse :
    3 < 4 ∧ ([0x80636261] : List Word)[0]? = some 0x80636261 ∧
    ([0x61, 0x62, 0x63, 0x80] : List Byte).length = 4 * 1 := by decide

theorem witness_DigestIsHWindow : 0 < 4 ∧ 3 < 4 := by decide

theorem witness_WindowAtBase : Config.base + 0xFF < Config.base + 0x100 := Nat.add_lt_add_left (by decide) _

theorem witness_AllowedAccesses :
    allowed 0x23 1 .read = true ∧ allowed 0xBC 4 .read = true ∧ allowed 0x7E 2 .write = true ∧
    allowed 0x80 4 .write = false ∧ allowed 0x24 1 .read = false := by decide

/-- A reserved offset, a misaligned read, a write to the first and to the last word of Y, a read of CMD. -/
theorem witness_BusErrorChangesNothing :
    ((doing (lw 0x0C) (busy .init)).hostDoes (.read 0x0C 4) ∧ (0x0C ≤ (0x0C : BitVec 8).toNat)) ∧
    ((doing (lw 0x42) idle).hostDoes (.read 0x42 4) ∧ (0x42 : BitVec 8).toNat % 4 ≠ 0) ∧
    ((doing (sw 0x80 0) idle).hostDoes (.write 0x80 4 0) ∧ 0x80 ≤ (0x80 : BitVec 8).toNat) ∧
    ((doing (sw 0xBC 0) idle).hostDoes (.write 0xBC 4 0) ∧ (0xBC : BitVec 8).toNat ≤ 0xBF) ∧
    (doing (lw 0x00) idle).hostDoes (.read 0x00 4) :=
  ⟨⟨doing_does _ rfl, by decide⟩, ⟨doing_does _ rfl, by decide⟩, ⟨doing_does _ rfl, by decide⟩,
    ⟨doing_does _ rfl, by decide⟩, doing_does _ rfl⟩

/-- A read of each kind: CMD, STATUS, BLKCNT idle, the ends of the windows idle, and busy. -/
theorem witness_ReadAnswers :
    ((doing (lw 0x00) idle).hostDoes (.read 0x00 4) ∧ allowed 0x00 4 .read = true) ∧
    ((doing (lw 0x04) done).hostDoes (.read 0x04 4) ∧ allowed 0x04 4 .read = true) ∧
    ((doing (lw 0x08) idle).hostDoes (.read 0x08 4) ∧ allowed 0x08 4 .read = true) ∧
    ((doing (lb 0xBF) idle).hostDoes (.read 0xBF 1) ∧ allowed 0xBF 1 .read = true) ∧
    ((doing (lw 0x10) (busy .init)).hostDoes (.read 0x10 4) ∧ allowed 0x10 4 .read = true) ∧
    idle.status.errCode.toNat ≤ 4 ∧ (busy .init).status.errCode.toNat ≤ 4 :=
  ⟨⟨doing_does _ rfl, by decide⟩, ⟨doing_does _ rfl, by decide⟩, ⟨doing_does _ rfl, by decide⟩,
    ⟨doing_does _ rfl, by decide⟩, ⟨doing_does _ rfl, by decide⟩, by decide, by decide⟩

/-- A write of each kind: STATUS, the ends of the H and X windows idle, and busy. -/
theorem witness_WriteEffects :
    ((doing clrerr illegalSeen).hostDoes (.write 0x04 4 0x00000002) ∧ allowed 0x04 4 .write = true) ∧
    ((doing (sb 0x23 0xAA) idle).hostDoes (.write 0x23 1 0xAA) ∧ allowed 0x23 1 .write = true) ∧
    ((doing (sh 0x7E 0xAABB) idle).hostDoes (.write 0x7E 2 0xAABB) ∧ allowed 0x7E 2 .write = true) ∧
    ((doing (sw 0x10 0) (busy .init)).hostDoes (.write 0x10 4 0) ∧ allowed 0x10 4 .write = true) :=
  ⟨⟨doing_does _ rfl, by decide⟩, ⟨doing_does _ rfl, by decide⟩, ⟨doing_does _ rfl, by decide⟩,
    doing_does _ rfl, by decide⟩

theorem witness_SetByteThenGetByte :
    ((0x10 ≤ 0x10 ∧ 0x10 ≤ 0x23) ∨ (0x40 ≤ 0x10 ∧ 0x10 ≤ 0x7F)) ∧
    ((0x10 ≤ 0x7F ∧ 0x7F ≤ 0x23) ∨ (0x40 ≤ 0x7F ∧ 0x7F ≤ 0x7F)) := by decide

theorem witness_ReadsHaveNoSideEffect :
    ((doing (lw 0x10) (busy .init)).hostDoes (.read 0x10 4) ∧ ∃ t, step (doing (lw 0x10) (busy .init)) = .next t) ∧
    ((doing .wait idle).hostDoes .wait ∧ ∃ t, step (doing .wait idle) = .next t) :=
  ⟨⟨doing_does _ rfl, _, rfl⟩, doing_does _ rfl, _, rfl⟩

theorem witness_ErrorPriority :
    (doing (sh 0x00 1) (busy .init)).hostDoes (.write 0x00 2 1) ∧
    ((doing (sw 0x00 6) (busy .init)).hostDoes (.write 0x00 4 6) ∧ (busy .init).status.busy = true) ∧
    ((doing (command .compress) { full with status := done.status }).hostDoes (.write 0x00 4 2) ∧
      done.status.busy = false ∧ done.status.done = true ∧ full.blkcnt.toNat = 2 ^ 26 - 1) :=
  ⟨doing_does _ rfl, ⟨doing_does _ rfl, rfl⟩, doing_does _ rfl, by decide⟩

theorem witness_ErrorCodes : illegalSeen.status.errCode.toNat ≤ 4 ∧ ∃ t, step illegalSeen = .next t :=
  ⟨by decide, _, rfl⟩

/-- BUSY set by an accepted command, cleared by a completion, cleared by reset. -/
theorem witness_BusyWriters :
    (∃ t, step (doing (command .init) idle) = .next t ∧ idle.status.busy = false ∧ t.status.busy = true) ∧
    (∃ t, step (due .init) = .next t ∧ (due .init).status.busy = true ∧ t.status.busy = false) ∧
    (∃ t, step (doing .reset (busy .init)) = .next t ∧ (busy .init).status.busy = true ∧ t.status.busy = false ∧
      t.pend ≠ (busy .init).pend) :=
  ⟨⟨_, rfl, rfl, rfl⟩, ⟨_, rfl, rfl, rfl⟩, _, rfl, rfl, rfl, by rintro ⟨⟩⟩

/-- A step of each kind DONE, PAD2 and BLKCNT are told apart by: FINAL, FORMAT, COMPRESS, INIT, reset, another. -/
theorem witness_DoneWriters_Pad2Writers_BlkcntWriters :
    ((due (.final 63)).coreRuns (.final 63) ∧ ∃ t, step (due (.final 63)) = .next t) ∧
    ((due (.format 0)).coreRuns (.format 0) ∧ ∃ t, step (due (.format 0)) = .next t) ∧
    ((due .compress).coreRuns .compress ∧ ∃ t, step (due .compress) = .next t) ∧
    ((due .init).coreRuns .init ∧ ∃ t, step (due .init) = .next t) ∧
    ((doing .reset done).hostDoes .reset ∧ ∃ t, step (doing .reset done) = .next t) ∧
    ((∀ r, ¬ idle.coreRuns (.final r)) ∧ (∀ r, ¬ idle.coreRuns (.final r) ∧ ¬ idle.coreRuns (.format r)) ∧
      ¬ idle.coreRuns .init ∧ ¬ idle.coreRuns .compress ∧ ¬ idle.hostDoes .reset ∧ ∃ t, step idle = .next t) :=
  ⟨⟨due_runs _, _, rfl⟩, ⟨due_runs _, _, rfl⟩, ⟨due_runs _, _, rfl⟩, ⟨due_runs _, _, rfl⟩,
    ⟨doing_does _ rfl, _, rfl⟩,
    ⟨(fun _ h => by cases h.1), (fun _ => ⟨(fun h => by cases h.1), (fun h => by cases h.1)⟩), (fun h => by cases h.1),
      (fun h => by cases h.1), (fun h => by cases h.2), _, rfl⟩⟩

/-- A step of each kind: a write to X rejected while busy, a command rejected, an acknowledgement, a reset, and a
completion that leaves both. -/
theorem witness_ErrorWriters :
    (∃ t, step (doing (sb 0x7F 1) (busy .init)) = .next t ∧ t.status.err = true ∧ t.status.errCode = 2) ∧
    (∃ t, step (doing (command .compress) full) = .next t ∧ t.status.err = true ∧ t.status.errCode = 4) ∧
    (∃ t, step (doing clrerr illegalSeen) = .next t ∧ t.status.err = false ∧ t.status.errCode = 0) ∧
    (∃ t, step (doing .reset illegalSeen) = .next t ∧ t.status.err = false ∧ t.status.errCode = 0) ∧
    (∃ t, step (due .init) = .next t ∧ t.status.err = (due .init).status.err) :=
  ⟨⟨_, rfl, rfl, rfl⟩, ⟨_, rfl, rfl, rfl⟩, ⟨_, rfl, rfl, rfl⟩, ⟨_, rfl, rfl, rfl⟩, _, rfl, rfl⟩

/-- H changed by INIT; and a legal state with DONE = 1 whose H a step changes (a host write). -/
theorem witness_HWriters :
    (∃ t, step (due .init) = .next t ∧ t.h ≠ (due .init).h) ∧
    (∃ t, step (doing (sw 0x10 1) done) = .next t ∧ t.h ≠ done.h) ∧ done.Inv ∧ done.status.done = true :=
  ⟨⟨_, rfl, by decide⟩, ⟨_, rfl, by decide⟩, inv_done, rfl⟩

/-- X and Y changed by FORMAT 63, X by a host write to the last byte of its window. -/
theorem witness_XAndYWriters :
    (∃ t, step (due (.format 63)) = .next t ∧ t.x ≠ zeroBlock ∧ t.y ≠ zeroBlock) ∧
    (∃ t, step (doing (sb 0x7F 1) idle) = .next t ∧ t.x ≠ idle.x) :=
  ⟨⟨_, rfl, by decide +kernel, by decide +kernel⟩, _, rfl, by decide +kernel⟩

theorem witness_PendingInputsProtected :
    (doing (sw 0x10 1) (busy .init)).turn = .host ∧ (doing (sw 0x10 1) (busy .init)).status.busy = true ∧
    ¬ (doing (sw 0x10 1) (busy .init)).hostDoes .reset ∧ ∃ t, step (doing (sw 0x10 1) (busy .init)) = .next t :=
  ⟨rfl, rfl, (fun h => by cases h.2), _, rfl⟩

theorem witness_ResetValues : (doing .reset (busy .init)).hostDoes .reset := doing_does _ rfl

theorem witness_StepNeverStops : (doing .wait illegalSeen).status.errCode.toNat ≤ 4 := by decide

/-- A command with one host step to go, and one whose completion is due. -/
theorem witness_PendingCommandCompletes :
    ((busy .compress).Inv ∧ (busy .compress).pend = some .compress ∧ .reset ∉ (busy .compress).inbox) ∧
    ((due (.final 63)).Inv ∧ (due (.final 63)).pend = some (.final 63) ∧ .reset ∉ (due (.final 63)).inbox) :=
  ⟨⟨inv_busy_compress, rfl, List.not_mem_nil⟩, inv_due_final, rfl, List.not_mem_nil⟩

/-- A legal state of each kind that steps: idle, a command pending, a completion due. -/
theorem witness_StepKeepsLegal :
    (idle.Inv ∧ ∃ t, step idle = .next t) ∧ ((busy .compress).Inv ∧ ∃ t, step (busy .compress) = .next t) ∧
    ((due (.final 63)).Inv ∧ ∃ t, step (due (.final 63)) = .next t) :=
  ⟨⟨inv_idle, _, rfl⟩, ⟨inv_busy_compress, _, rfl⟩, inv_due_final, _, rfl⟩

end Sys2Proof.Tests
end

section
/-!
The rotate of the compression core (00_scope.md R10): the model's shift-and-or form is the library's `BitVec.rotateLeft`,
so its bits are the library's.
-/

namespace Sys2Proof.Machine

theorem rol32_eq_rotateLeft (x : Word) {s : Nat} (hs : s < 32) : rol32 x s = x.rotateLeft s := by
  rw [BitVec.rotateLeft_def, Nat.mod_eq_of_lt hs, rol32]

/-- The `s` low bits come around from the top; every other bit comes up from `s` places below. -/
theorem getLsbD_rol32 (x : Word) {s i : Nat} (hs : s < 32) (hi : i < 32) :
    (rol32 x s).getLsbD i = x.getLsbD ((i + (32 - s)) % 32) := by
  rw [rol32_eq_rotateLeft x hs, BitVec.getLsbD_rotateLeft_of_le hs]
  by_cases hlow : i < s
  · have source : (i + (32 - s)) % 32 = 32 - s + i := by omega
    simp [hlow, source]
  · have source : (i + (32 - s)) % 32 = i - s := by omega
    simp [hlow, hi, source]

/-- Settles O22, from the bits of `rol32`. The amount 0, which R10 leaves out, would do as well. -/
theorem rotateMovesBits : Obligations.RotateMovesBits :=
  fun x _ _ _ hs hi => getLsbD_rol32 x (Nat.lt_succ_of_le hs) hi

end Sys2Proof.Machine
end

section
/-!
What one step does to the registers, part by part: the value a completion and a reset leave, and what a host step that
is no reset can change. Built on `step_cases`; the writers' statements of 10_state.md are read off these lemmas.
-/

namespace Sys2Proof.Machine

/-! ### The step of an agent as an equation for the state after it -/

theorem step_of_coreRuns_eq {s t : State} {i : Instr} (h : step s = .next t) (hi : s.coreRuns i) :
    t = (completed i s).finish.handOver := by
  rw [step_of_coreRuns hi, exec_core hi.1] at h
  cases h
  rfl

theorem step_of_reset_eq {s t : State} (h : step s = .next t) (hr : s.hostDoes .reset) :
    t = (s.platformReset s.inbox.tail).handOver := by
  rw [step_of_reset hr] at h
  cases h
  rfl

/-! ### Which completions write H, and which X and Y -/

theorem completed_h (i : Instr) (s : State) :
    (completed i s).h = s.h ∨ i = .init ∨ i = .compress ∨ i = .rawcomp ∨ ∃ r, i = .final r := by
  cases i <;> simp [completed]

theorem completed_x_y (i : Instr) (s : State) :
    ((completed i s).x = s.x ∧ (completed i s).y = s.y) ∨ ∃ r, i = .format r ∨ i = .final r := by
  cases i <;> simp [completed]

/-! ### What a host step that is no reset can change -/

/-- The next step writes bytes of region `r` while no command is pending (20_memory.md R38). -/
def State.writesRegion (s : State) (r : Region) : Prop :=
  ∃ off n v, s.hostDoes (.write off n v) ∧ regionOf off.toNat = r ∧ s.status.busy = false

/-- What a host step that is no reset leaves alone: DONE, PAD2, BLKCNT and Y always, H and X unless their own window is
written. -/
structure HostStepFrame (s t : State) : Prop where
  done : t.status.done = s.status.done
  pad2 : t.status.pad2 = s.status.pad2
  blkcnt : t.blkcnt = s.blkcnt
  y : t.y = s.y
  h : t.h = s.h ∨ s.writesRegion .h
  x : t.x = s.x ∨ s.writesRegion .x

theorem hostStepFrame_of_sameRegisters {s u : State} (h : s.sameRegisters u) : HostStepFrame s u.handOver := by
  obtain ⟨hh, hx, hy, hstatus, hblkcnt, -⟩ := h
  constructor <;> simp [*]

/-- An aligned write stays in its window, so a write to H leaves X and a write to X leaves H. -/
theorem hostStepFrame_of_writeBytes {s : State} {off : BitVec 8} {n : Nat} {v : Word}
    (he : s.hostDoes (.write off n v)) (ha : allowed off.toNat n .write = true) (hb : s.status.busy = false)
    (hr : regionOf off.toNat = .h ∨ regionOf off.toNat = .x) :
    HostStepFrame s (writeBytes v off.toNat 0 n (s.taken .ok)).handOver := by
  have inRegion : ∀ j, 0 ≤ j → j < 0 + n → regionOf (off.toNat + j) = regionOf off.toNat := fun j _ hj =>
    window_region ha rfl hr j (by omega)
  have written : s.writesRegion (regionOf off.toNat) := ⟨off, n, v, he, rfl, hb⟩
  obtain ⟨h, x, frame⟩ := writeBytes_frame v off.toNat 0 n (s.taken .ok)
  refine ⟨by simp [frame], by simp [frame], by simp [frame], by simp [frame], ?_, ?_⟩
  · rcases hr with hr | hr
    · exact .inr (hr ▸ written)
    · exact .inl (writeBytes_h _ _ _ _ _ fun j h0 hj => by simp [inRegion j h0 hj, hr])
  · rcases hr with hr | hr
    · exact .inl (writeBytes_x _ _ _ _ _ fun j h0 hj => by simp [inRegion j h0 hj, hr])
    · exact .inr (hr ▸ written)

/-- A step is a completion, a reset, or keeps the frame of a host step. -/
theorem step_completes_resets_or_frame {s t : State} (h : step s = .next t) :
    (∃ i, s.coreRuns i) ∨ s.hostDoes .reset ∨ HostStepFrame s t := by
  obtain ⟨i, hi, -⟩ | ⟨hr, -⟩ | ⟨u, hu, -, -, -, -, -, rfl⟩ | ⟨off, n, v, c, -, rfl⟩ | ⟨w, i, -, -, -, -, -, -, rfl⟩ |
    ⟨v, -, rfl⟩ | ⟨off, n, v, he, ha, hb, hr, rfl⟩ := step_cases h
  · exact .inl ⟨i, hi⟩
  · exact .inr (.inl hr)
  · exact .inr (.inr (hostStepFrame_of_sameRegisters hu))
  · exact .inr (.inr (by constructor <;> simp))
  · exact .inr (.inr (by constructor <;> simp))
  · exact .inr (.inr (by constructor <;> simp))
  · exact .inr (.inr (hostStepFrame_of_writeBytes he ha hb hr))

/-- A STATUS write leaves ERR and ERRCODE, or has bit 1 set and clears both (10_state.md R21). -/
theorem Status.write_error (t : Status) (w : Word) :
    ((t.write w).err = t.err ∧ (t.write w).errCode = t.errCode) ∨
    (w.getLsbD 1 = true ∧ (t.write w).err = false ∧ (t.write w).errCode = 0) := by
  cases hw : w.getLsbD 1 with
  | false => rw [t.write_clear hw]; exact .inl ⟨rfl, rfl⟩
  | true => rw [t.write_set hw]; exact .inr ⟨rfl, rfl, rfl⟩

/-- Every rejection has one of the codes 1..4 (60_exceptions.md R102). -/
theorem CmdError.code_range (c : CmdError) : 1 ≤ c.code.toNat ∧ c.code.toNat ≤ 4 := by
  cases c <;> decide

end Sys2Proof.Machine
end

section
/-!
Every step from a legal state ends in a legal state: the turn apart, legality is a condition on STATUS, PEND, BLKCNT and
the step counter that each operation keeps, and handing the turn over adds the clause on the turn.
-/

namespace Sys2Proof.Machine

/-- `State.Inv` but for the clause on the turn, which holds only once a move has handed the turn over. -/
structure State.RegistersLegal (s : State) : Prop where
  busy_iff : s.status.busy = s.pend.isSome
  pend_legal : ∀ i, s.pend = some i → pendingLegal i s.status.done s.blkcnt.toNat
  err_iff : s.status.err = true ↔ s.status.errCode ≠ 0
  code_le : s.status.errCode.toNat ≤ 4
  count_open : s.status.done = false → s.blkcnt.toNat ≤ maxMessageBlocks
  count_le : s.blkcnt.toNat ≤ 2 ^ 26 + 1
  counter_le : s.work.j ≤ 80

theorem State.inv_iff_registersLegal (s : State) :
    s.Inv ↔ s.RegistersLegal ∧ (s.turn = .core → s.pend.isSome = true) := by
  constructor
  · rintro ⟨hbusy, hpend, herr, hcode, hopen, hle, hturn, hcounter⟩
    exact ⟨⟨hbusy, hpend, herr, hcode, hopen, hle, hcounter⟩, hturn⟩
  · rintro ⟨⟨hbusy, hpend, herr, hcode, hopen, hle, hcounter⟩, hturn⟩
    exact ⟨hbusy, hpend, herr, hcode, hopen, hle, hturn, hcounter⟩

namespace State.RegistersLegal

theorem congr {s u : State} (hs : s.RegistersLegal) (hstatus : u.status = s.status) (hblkcnt : u.blkcnt = s.blkcnt)
    (hpend : u.pend = s.pend) (hwork : u.work = s.work) : u.RegistersLegal := by
  obtain ⟨hbusy, hlegal, herr, hcode, hopen, hle, hcounter⟩ := hs
  constructor <;> simp only [hstatus, hblkcnt, hpend, hwork] <;> assumption

theorem handOver {s : State} (hs : s.RegistersLegal) : s.handOver.Inv :=
  (State.inv_iff_registersLegal _).2 ⟨hs.congr rfl rfl rfl rfl, handOver_core⟩

theorem cmdError {s : State} (hs : s.RegistersLegal) (c : CmdError) : (s.cmdError c).RegistersLegal where
  busy_iff := hs.busy_iff
  pend_legal := hs.pend_legal
  err_iff := by cases c <;> simp [CmdError.code]
  code_le := c.code_range.2
  count_open := hs.count_open
  count_le := hs.count_le
  counter_le := hs.counter_le

theorem writeStatus {s : State} (hs : s.RegistersLegal) (w : Word) : (s.writeStatus w).RegistersLegal where
  busy_iff := by simpa using hs.busy_iff
  pend_legal := by simpa using hs.pend_legal
  err_iff := by
    obtain ⟨herr, hcode⟩ | ⟨-, herr, hcode⟩ := s.status.write_error w
    · simpa [herr, hcode] using hs.err_iff
    · simp [herr, hcode]
  code_le := by
    obtain ⟨-, hcode⟩ | ⟨-, -, hcode⟩ := s.status.write_error w
    · simpa [hcode] using hs.code_le
    · simp [hcode]
  count_open := by simpa using hs.count_open
  count_le := hs.count_le
  counter_le := hs.counter_le

theorem accept {s : State} {i : Instr} (hs : s.RegistersLegal)
    (hi : pendingLegal i s.status.done s.blkcnt.toNat) : (s.accept i).RegistersLegal where
  busy_iff := rfl
  pend_legal := by rintro _ ⟨⟩; exact hi
  err_iff := hs.err_iff
  code_le := hs.code_le
  count_open := hs.count_open
  count_le := hs.count_le
  counter_le := hs.counter_le

theorem platformReset (s : State) (rest : List HostEvent) : (s.platformReset rest).RegistersLegal where
  busy_iff := rfl
  pend_legal := by rintro _ ⟨⟩
  err_iff := by simp
  code_le := by simp
  count_open := by simp
  count_le := by simp
  counter_le := Nat.le_of_lt_succ (Nat.mod_lt _ (by decide))

/-- A completion keeps the bounds on BLKCNT: COMPRESS was accepted below the limit, FINAL adds at most 2 and closes the
count. -/
theorem completed_counts {s : State} {i : Instr} (hs : s.RegistersLegal) (hp : s.pend = some i) :
    ((completed i s).status.done = false → (completed i s).blkcnt.toNat ≤ maxMessageBlocks) ∧
    (completed i s).blkcnt.toNat ≤ 2 ^ 26 + 1 := by
  obtain ⟨-, -, accepted⟩ := hs.pend_legal i hp
  rw [completed_blkcnt, completed_done]
  cases i with
  | nop => exact ⟨hs.count_open, hs.count_le⟩
  | init => simp
  | compress =>
    obtain ⟨-, room⟩ := accepted
    unfold maxMessageBlocks at room ⊢
    have counted : (s.blkcnt + 1).toNat = s.blkcnt.toNat + 1 := by bv_omega
    simp only [counted]
    omega
  | final r =>
    have full := hs.count_open accepted
    unfold maxMessageBlocks at full
    have trailer_le : (if tailNeedsTwo r then 2 else 1 : Word).toNat ≤ 2 := by split <;> decide
    refine ⟨by simp, ?_⟩
    bv_omega
  | format r => exact ⟨hs.count_open, hs.count_le⟩
  | rawcomp => exact ⟨hs.count_open, hs.count_le⟩

theorem completed_finish {s : State} {i : Instr} (hs : s.RegistersLegal) (hp : s.pend = some i) :
    (completed i s).finish.RegistersLegal where
  busy_iff := rfl
  pend_legal := by rintro _ ⟨⟩
  err_iff := by simpa using hs.err_iff
  code_le := by simpa using hs.code_le
  count_open := (hs.completed_counts hp).1
  count_le := (hs.completed_counts hp).2
  counter_le := by
    obtain kept | ran := completed_work_j i s
    · exact kept.trans_le hs.counter_le
    · exact ran.le

theorem writeBytes {s : State} (hs : s.RegistersLegal) (v : Word) (o k n : Nat) :
    (writeBytes v o k n s).RegistersLegal := by
  obtain ⟨h, x, frame⟩ := writeBytes_frame v o k n s
  exact frame ▸ hs.congr rfl rfl rfl rfl

end State.RegistersLegal

/-- A decoded tail length has six bits (30_encoding.md R51). -/
theorem wellFormed_of_decode {w : Word} {i : Instr} (h : decode w = .command i) : i.wellFormed = true := by
  have tail_le : (tailField w).toNat ≤ 63 := Nat.le_of_lt_succ (tailField w).isLt
  obtain ⟨h1, h0⟩ := decode_command_reserved h
  obtain ⟨-, hd⟩ | ⟨-, hd⟩ | ⟨-, ⟨-, hd⟩ | ⟨-, hd⟩ | ⟨-, hd⟩ | ⟨-, hd⟩⟩ | ⟨-, hd⟩ | ⟨-, -, -, hd⟩ :=
    decode_of_fields h1 h0 <;> rw [hd] at h <;> cases h
  · exact decide_eq_true tail_le
  · exact decide_eq_true tail_le
  · rfl
  · rfl
  · rfl
  · rfl

/-- The checks at issue (42_driver.md R84) are what legality asks of a pending command. -/
theorem pendingLegal_of_issue {i : Instr} {done : Bool} {blkcnt : Nat} (hw : i.wellFormed = true)
    (hp : i.isPendable = true) (hopen : done = false → blkcnt ≤ maxMessageBlocks)
    (hc : i = .compress → done = false ∧ blkcnt ≠ maxMessageBlocks)
    (hf : (∃ r, i = .final r ∨ i = .format r) → done = false) : pendingLegal i done blkcnt := by
  refine ⟨hw, hp, ?_⟩
  cases i with
  | compress =>
    obtain ⟨hd, room⟩ := hc rfl
    exact ⟨hd, Nat.lt_of_le_of_ne (hopen hd) room⟩
  | final r => exact hf ⟨r, .inl rfl⟩
  | format r => exact hf ⟨r, .inr rfl⟩
  | nop => trivial
  | init => trivial
  | rawcomp => trivial

/-- Settles O60, operation by operation. -/
theorem stepKeepsLegal : Obligations.StepKeepsLegal := by
  intro s t hs h
  obtain ⟨legal, -⟩ := s.inv_iff_registersLegal.1 hs
  have legalTaken : (s.taken .ok).RegistersLegal := legal.congr rfl rfl rfl rfl
  obtain ⟨i, ⟨-, hp⟩, rfl⟩ | ⟨-, rfl⟩ | ⟨u, same, hwork, -, -, -, -, rfl⟩ | ⟨off, n, v, c, -, rfl⟩ |
    ⟨w, i, -, hd, -, hp, hc, hf, rfl⟩ | ⟨v, -, rfl⟩ | ⟨off, n, v, -, -, -, -, rfl⟩ := step_cases h
  · exact (legal.completed_finish hp).handOver
  · exact (State.RegistersLegal.platformReset s _).handOver
  · obtain ⟨-, -, -, hstatus, hblkcnt, hpend⟩ := same
    exact (legal.congr hstatus hblkcnt hpend hwork).handOver
  · exact (legalTaken.cmdError c).handOver
  · exact (legalTaken.accept (pendingLegal_of_issue (wellFormed_of_decode hd) hp legal.count_open hc hf)).handOver
  · exact (legalTaken.writeStatus v).handOver
  · exact (legalTaken.writeBytes v _ _ n).handOver

end Sys2Proof.Machine
end

section
/-!
Which steps write each part of STATUS, BLKCNT, H, X and Y (10_state.md R16 to R26): a completion and a reset by the value
they leave, any other step by its frame.
-/

namespace Sys2Proof.Machine

/-- Settles O48: every completion but INIT's and FINAL's keeps DONE, and so does the frame of a host step. -/
theorem doneWriters : Obligations.DoneWriters := by
  intro s t h
  refine ⟨fun r hr => ?_, ?_, fun notFinal notInit notReset => ?_⟩
  · simp [step_of_coreRuns_eq h hr, completed_done]
  · rintro (hi | hr)
    · simp [step_of_coreRuns_eq h hi, completed_done]
    · simp [step_of_reset_eq h hr]
  · obtain ⟨i, hi⟩ | hr | frame := step_completes_resets_or_frame h
    · rw [step_of_coreRuns_eq h hi]
      cases i with
      | init => exact absurd hi notInit
      | final r => exact absurd hi (notFinal r)
      | nop | compress | format | rawcomp => simp [completed_done]
    · exact absurd hr notReset
    · exact frame.done

/-- Settles O49, as `doneWriters` with FORMAT among the completions that write. -/
theorem pad2Writers : Obligations.Pad2Writers := by
  intro s t h
  refine ⟨fun r hr => ?_, ?_, fun notFormat notInit notReset => ?_⟩
  · rcases hr with hr | hr <;> simp [step_of_coreRuns_eq h hr, completed_pad2, tailNeedsTwo]
  · rintro (hi | hr)
    · simp [step_of_coreRuns_eq h hi, completed_pad2]
    · simp [step_of_reset_eq h hr]
  · obtain ⟨i, hi⟩ | hr | frame := step_completes_resets_or_frame h
    · rw [step_of_coreRuns_eq h hi]
      cases i with
      | init => exact absurd hi notInit
      | final r => exact absurd hi (notFormat r).1
      | format r => exact absurd hi (notFormat r).2
      | nop | compress | rawcomp => simp [completed_pad2]
    · exact absurd hr notReset
    · exact frame.pad2

/-- Settles O51. FINAL's own PAD2 is set before it counts its blocks, so PAD2 after the step says how many they were. -/
theorem blkcntWriters : Obligations.BlkcntWriters := by
  intro s t h
  refine ⟨?_, fun hc => ?_, fun r hr => ?_, fun notInit notReset notCompress notFinal => ?_⟩
  · rintro (hi | hr)
    · simp [step_of_coreRuns_eq h hi, completed_blkcnt]
    · simp [step_of_reset_eq h hr]
  · simp [step_of_coreRuns_eq h hc, completed_blkcnt]
  · rw [step_of_coreRuns_eq h hr]
    cases hp : tailNeedsTwo r <;> simp [completed_blkcnt, completed_pad2, hp, BitVec.add_assoc]
  · obtain ⟨i, hi⟩ | hr | frame := step_completes_resets_or_frame h
    · rw [step_of_coreRuns_eq h hi]
      cases i with
      | init => exact absurd hi notInit
      | compress => exact absurd hi notCompress
      | final r => exact absurd hi (notFinal r)
      | nop | format | rawcomp => simp [completed_blkcnt]
    · exact absurd hr notReset
    · exact frame.blkcnt

/-- Settles O50, kind of step by kind of step. -/
theorem errorWriters : Obligations.ErrorWriters := by
  intro s t h
  obtain ⟨i, -, rfl⟩ | ⟨hr, rfl⟩ | ⟨u, ⟨-, -, -, hstatus, -, -⟩, -, -, -, -, -, rfl⟩ | ⟨off, n, v, c, he, rfl⟩ |
    ⟨w, i, -, -, -, -, -, -, rfl⟩ | ⟨v, he, rfl⟩ | ⟨off, n, v, -, -, -, -, rfl⟩ := step_cases h
  · exact .inl (by simp)
  · exact .inr (.inr ⟨rfl, rfl, .inl hr⟩)
  · exact .inl (by simp [hstatus])
  · exact .inr (.inl ⟨rfl, c.code_range.1, c.code_range.2, off, n, v, he⟩)
  · exact .inl ⟨rfl, rfl⟩
  · obtain kept | ⟨hv, herr, hcode⟩ := s.status.write_error v
    · exact .inl kept
    · exact .inr (.inr ⟨herr, hcode, .inr ⟨v, he, hv⟩⟩)
  · obtain ⟨_, _, frame⟩ := writeBytes_frame v off.toNat 0 n (s.taken .ok)
    exact .inl (by simp [frame])

/-- What a step does to BUSY and PEND: a completion and a reset clear both, an acceptance sets both, and every other step
leaves both. -/
theorem step_busy_pend {s t : State} (h : step s = .next t) :
    (((∃ i, s.coreRuns i) ∨ s.hostDoes .reset) ∧ t.status.busy = false ∧ t.pend = none) ∨
    (∃ w i, s.hostDoes (.write 0x00 4 w) ∧ decode w = .command i ∧ i ≠ .nop ∧ s.status.busy = false ∧
      t.status.busy = true ∧ t.pend = some i) ∨
    (t.status.busy = s.status.busy ∧ t.pend = s.pend) := by
  obtain ⟨i, hi, rfl⟩ | ⟨hr, rfl⟩ | ⟨u, ⟨-, -, -, hstatus, -, hpend⟩, -, -, -, -, -, rfl⟩ | ⟨off, n, v, c, -, rfl⟩ |
    ⟨w, i, he, hd, hb, hp, -, -, rfl⟩ | ⟨v, -, rfl⟩ | ⟨off, n, v, -, -, -, -, rfl⟩ := step_cases h
  · exact .inl ⟨.inl ⟨i, hi⟩, rfl, rfl⟩
  · exact .inl ⟨.inr hr, rfl, rfl⟩
  · exact .inr (.inr (by simp [hstatus, hpend]))
  · exact .inr (.inr ⟨rfl, rfl⟩)
  · have notNop : i ≠ .nop := by rintro rfl; cases hp
    exact .inr (.inl ⟨w, i, he, hd, notNop, hb, rfl, rfl⟩)
  · exact .inr (.inr (by simp))
  · obtain ⟨_, _, frame⟩ := writeBytes_frame v off.toNat 0 n (s.taken .ok)
    exact .inr (.inr (by simp [frame]))

/-- Settles O47, from what a step does to BUSY and PEND. -/
theorem busyWriters : Obligations.BusyWriters := by
  intro s t h
  refine ⟨fun i hi => ?_, ?_⟩
  · rw [step_of_coreRuns_eq h hi]
    exact ⟨rfl, rfl⟩
  · obtain ⟨who, hbusy, hpend⟩ | ⟨w, i, he, hd, notNop, hb, hbusy, hpend⟩ | ⟨hbusy, hpend⟩ := step_busy_pend h
    · exact ⟨by simp [hbusy], fun _ _ => who, fun _ => by simp [hbusy, hpend]⟩
    · exact ⟨fun _ _ => ⟨w, i, he, hd, notNop, hpend⟩, by simp [hbusy], fun _ => by simp [hbusy, hpend]⟩
    · exact ⟨by simp_all, by simp_all, fun changed => absurd hpend changed⟩

/-- A legal state with DONE set has neither COMPRESS nor FINAL pending (70_reset_and_hazards.md R125). -/
theorem State.Inv.not_absorbing_of_done {s : State} (hs : s.Inv) (hd : s.status.done = true) :
    ¬ s.coreRuns .compress ∧ ∀ r, ¬ s.coreRuns (.final r) := by
  have blocked : ∀ {i}, s.coreRuns i → pendingLegal i true s.blkcnt.toNat := fun hi => hd ▸ hs.pend_legal _ hi.2
  constructor
  · intro hi
    obtain ⟨-, -, ⟨⟩, -⟩ := blocked hi
  · intro r hi
    obtain ⟨-, -, ⟨⟩⟩ := blocked hi

/-- Settles O52: a host step changes H through its window alone. -/
theorem hWriters : Obligations.HWriters := by
  intro s t h changed
  refine ⟨?_, State.Inv.not_absorbing_of_done⟩
  obtain ⟨i, hi⟩ | hr | frame := step_completes_resets_or_frame h
  · rw [step_of_coreRuns_eq h hi] at changed
    obtain kept | rfl | rfl | rfl | ⟨r, rfl⟩ := completed_h i s
    · exact absurd kept changed
    · exact .inl hi
    · exact .inr (.inr (.inr (.inr (.inl hi))))
    · exact .inr (.inl hi)
    · exact .inr (.inr (.inr (.inr (.inr ⟨r, hi⟩))))
  · exact .inr (.inr (.inl hr))
  · obtain ⟨off, n, v, he, hregion, hb⟩ := frame.h.resolve_left changed
    obtain ⟨low, high⟩ := (regionOf_h _).1 hregion
    exact .inr (.inr (.inr (.inl ⟨off, n, v, he, low, high, hb⟩)))

/-- Settles O53: X has a window the host writes, Y has none. -/
theorem xAndYWriters : Obligations.XAndYWriters := by
  intro s t h
  obtain ⟨i, hi⟩ | hr | frame := step_completes_resets_or_frame h
  · rw [step_of_coreRuns_eq h hi]
    obtain ⟨hx, hy⟩ | ⟨r, rfl | rfl⟩ := completed_x_y i s
    · exact ⟨absurd hx, absurd hy⟩
    · exact ⟨fun _ => .inl ⟨r, .inl hi⟩, fun _ => .inl ⟨r, .inl hi⟩⟩
    · exact ⟨fun _ => .inl ⟨r, .inr hi⟩, fun _ => .inl ⟨r, .inr hi⟩⟩
  · exact ⟨fun _ => .inr (.inl hr), fun _ => .inr hr⟩
  · refine ⟨fun changed => ?_, absurd frame.y⟩
    obtain ⟨off, n, v, he, hregion, hb⟩ := frame.x.resolve_left changed
    obtain ⟨low, high⟩ := (regionOf_x _).1 hregion
    exact .inr (.inr ⟨off, n, v, he, low, high, hb⟩)

end Sys2Proof.Machine
end

section
/-!
STATUS as a word (10_state.md R21), bit by bit.
-/

namespace Sys2Proof.Machine

theorem getLsbD_flagBit (b : Bool) (i : Nat) : (flagBit b).getLsbD i = (decide (i = 0) && b) := by
  cases b with
  | false => simp [flagBit]
  | true => simp [flagBit, BitVec.getLsbD_one]

theorem getLsbD_flagBit_shiftLeft (b : Bool) (k : Nat) {i : Nat} (hi : i < 32) :
    (flagBit b <<< k).getLsbD i = (decide (i = k) && b) := by
  have place : (¬ i < k ∧ i - k = 0) ↔ i = k := by omega
  simp only [BitVec.getLsbD_shiftLeft, getLsbD_flagBit, hi, decide_true, Bool.true_and, ← Bool.and_assoc, ← decide_not,
    ← Bool.decide_and, place]

/-- A flag in each of bits 0 to 3, ERRCODE from bit 8 on. -/
theorem Status.getLsbD_word (t : Status) {i : Nat} (hi : i < 32) :
    t.word.getLsbD i =
      ((decide (i = 0) && t.busy) || (decide (i = 1) && t.err) || (decide (i = 2) && t.done) ||
        (decide (i = 3) && t.pad2) || (decide (8 ≤ i) && t.errCode.getLsbD (i - 8))) := by
  have low : i - 8 < 32 := by omega
  simp only [Status.word, BitVec.getLsbD_or, getLsbD_flagBit, getLsbD_flagBit_shiftLeft _ _ hi,
    BitVec.getLsbD_shiftLeft, BitVec.getLsbD_setWidth, hi, low, decide_true, Bool.true_and, ← decide_not, Nat.not_lt]

theorem Status.getLsbD_word_errCode (t : Status) {i : Nat} (hi : i < 4) :
    t.word.getLsbD (8 + i) = t.errCode.getLsbD i := by
  have noFlag : 8 + i ≠ 1 ∧ 8 + i ≠ 2 ∧ 8 + i ≠ 3 := by omega
  rw [t.getLsbD_word (by omega), Nat.add_sub_cancel_left]
  simp [noFlag]

theorem Status.getLsbD_word_reserved (t : Status) {i : Nat} (hi : i < 32) (hr : 4 ≤ i ∧ i < 8 ∨ 12 ≤ i) :
    t.word.getLsbD i = false := by
  have noFlag : i ≠ 0 ∧ i ≠ 1 ∧ i ≠ 2 ∧ i ≠ 3 := by omega
  have noCode : 8 ≤ i → t.errCode.getLsbD (i - 8) = false := fun _ => BitVec.getLsbD_of_ge _ _ (by omega)
  rw [t.getLsbD_word hi]
  simpa [noFlag] using noCode

/-- Settles O44: the flags from their own bits, the fields bit by bit. -/
theorem statusWordFields : Obligations.StatusWordFields := by
  intro t
  refine ⟨?_, ?_, ?_, ?_, BitVec.eq_of_getLsbD_eq fun i hi => ?_, BitVec.eq_of_getLsbD_eq fun i hi => ?_,
    BitVec.eq_of_getLsbD_eq fun i hi => ?_⟩
  · rw [t.getLsbD_word (by decide)]; simp
  · rw [t.getLsbD_word (by decide)]; simp
  · rw [t.getLsbD_word (by decide)]; simp
  · rw [t.getLsbD_word (by decide)]; simp
  · rw [BitVec.getLsbD_extractLsb, t.getLsbD_word_reserved (by omega) (by omega)]; simp
  · rw [BitVec.getLsbD_extractLsb, t.getLsbD_word_errCode hi]; simpa using BitVec.lt_of_getLsbD
  · rw [BitVec.getLsbD_extractLsb, t.getLsbD_word_reserved (by omega) (by omega)]; simp

end Sys2Proof.Machine
end

section
/-!
The window's allowed accesses (20_memory.md R36, R37), and where the window stands on the host bus (R32).
-/

namespace Sys2Proof.Machine

/-! ### Regions and widths -/

theorem regionOf_cmd (o : Nat) : regionOf o = .cmd ↔ o ≤ 0x03 := by
  unfold regionOf
  repeat' split
  all_goals simp
  all_goals omega

theorem regionOf_status (o : Nat) : regionOf o = .status ↔ 0x04 ≤ o ∧ o ≤ 0x07 := by
  unfold regionOf
  repeat' split
  all_goals simp
  all_goals omega

theorem regionOf_blkcnt (o : Nat) : regionOf o = .blkcnt ↔ 0x08 ≤ o ∧ o ≤ 0x0B := by
  unfold regionOf
  repeat' split
  all_goals simp
  all_goals omega

theorem allowed_iff (off n : Nat) (dir : Direction) :
    allowed off n dir = true ↔ n ∈ (regionOf off).widths dir ∧ off % n = 0 := by
  simp [allowed]

/-- A control word is read whole, a window by 1, 2 or 4 bytes (R37). -/
theorem mem_widths_read (r : Region) (n : Nat) :
    n ∈ r.widths .read ↔
      (n = 4 ∧ (r = .cmd ∨ r = .status ∨ r = .blkcnt)) ∨ ((n = 1 ∨ n = 2 ∨ n = 4) ∧ (r = .h ∨ r = .x ∨ r = .y)) := by
  cases r <;> simp [Region.widths]

/-- The host writes CMD, STATUS and the H and X windows; BLKCNT and Y are read-only (R37). -/
theorem mem_widths_write (r : Region) (n : Nat) :
    n ∈ r.widths .write ↔
      (n = 4 ∧ (r = .cmd ∨ r = .status)) ∨ ((n = 1 ∨ n = 2 ∨ n = 4) ∧ (r = .h ∨ r = .x)) := by
  cases r <;> simp [Region.widths]

/-- Settles O37: the widths of each region, the regions by their bounds; an aligned 4-byte access to a control word is
at its first byte. -/
theorem allowedAccesses : Obligations.AllowedAccesses := by
  intro off n
  have at0 : off = 0x00 ↔ off.toNat = 0 := by bv_omega
  have at4 : off = 0x04 ↔ off.toNat = 4 := by bv_omega
  have at8 : off = 0x08 ↔ off.toNat = 8 := by bv_omega
  constructor
  · rw [allowed_iff, mem_widths_read, regionOf_cmd, regionOf_status, regionOf_blkcnt, regionOf_h, regionOf_x,
      regionOf_y, at0, at4, at8]
    constructor
    · rintro ⟨⟨rfl, region⟩ | ⟨width, region⟩, aligned⟩ <;> omega
    · rintro (⟨rfl, place⟩ | ⟨width, aligned, place⟩) <;> omega
  · rw [allowed_iff, mem_widths_write, regionOf_cmd, regionOf_status, regionOf_h, regionOf_x, at0, at4]
    constructor
    · rintro ⟨⟨rfl, region⟩ | ⟨width, region⟩, aligned⟩ <;> omega
    · rintro (⟨rfl, place⟩ | ⟨width, aligned, place⟩) <;> omega

/-! ### The window on the host bus -/

theorem windowOffset_base_add (off : BitVec 8) : windowOffset (Config.base + off.toNat) = some off := by
  have inWindow : Config.base ≤ Config.base + off.toNat ∧ Config.base + off.toNat ≤ Config.base + 0xFF := by
    have := off.isLt
    omega
  rw [windowOffset, if_pos inWindow, Nat.add_sub_cancel_left, BitVec.ofNat_toNat, BitVec.setWidth_eq]

/-- Settles O36. -/
theorem windowAtBase : Obligations.WindowAtBase := by
  refine ⟨Nat.mul_mod_right _ _, windowOffset_base_add, fun addr outside => if_neg ?_⟩
  rintro ⟨low, high⟩
  exact outside.elim (Nat.not_lt.2 low) (Nat.not_lt.2 high)

end Sys2Proof.Machine
end

section
/-!
The bytes of the window (20_memory.md R34, R35, R39): what a byte reads after a write, words as their four bytes, and a
wide write as its byte writes.
-/

namespace Sys2Proof.Machine

/-! ### A byte of each window -/

theorem getByte_of_h (s : State) {o : Nat} (hr : regionOf o = .h) :
    getByte s o = byteOf (wordAt s.h ((o - 0x10) / 4)) (o % 4) := by
  unfold getByte; rw [hr]

theorem getByte_of_x (s : State) {o : Nat} (hr : regionOf o = .x) :
    getByte s o = byteOf (wordAt s.x ((o - 0x40) / 4)) (o % 4) := by
  unfold getByte; rw [hr]

theorem getByte_of_y (s : State) {o : Nat} (hr : regionOf o = .y) :
    getByte s o = byteOf (wordAt s.y ((o - 0x80) / 4)) (o % 4) := by
  unfold getByte; rw [hr]

/-- A byte depends on its own window alone. -/
theorem getByte_congr {s t : State} {o : Nat} (hh : regionOf o = .h → t.h = s.h) (hx : regionOf o = .x → t.x = s.x)
    (hy : t.y = s.y) : getByte t o = getByte s o := by
  unfold getByte
  cases hr : regionOf o with
  | h => simp only [hh hr]
  | x => simp only [hx hr]
  | y => simp only [hy]
  | cmd | status | blkcnt | reserved => rfl

/-! ### Writing a byte -/

theorem byteOf_wordAt_setLane {n : Nat} (v : Vector Word n) {i : Nat} (hi : i < n) (o j o' : Nat) (b : Byte) :
    byteOf (wordAt (setLane v i o b) j) (o' % 4) =
      if j = i ∧ o' % 4 = o % 4 then b else byteOf (wordAt v j) (o' % 4) := by
  rw [wordAt_setLane v i o j b hi]
  by_cases hj : j = i
  · simp [hj, byteOf_setByteOf _ b (Nat.mod_lt o' (by decide))]
  · simp [hj]

theorem setByte_of_h (s : State) {o : Nat} (hr : regionOf o = .h) (b : Byte) :
    setByte s o b = { s with h := setLane s.h ((o - 0x10) / 4) o b } := by
  unfold setByte; rw [hr]

theorem setByte_of_x (s : State) {o : Nat} (hr : regionOf o = .x) (b : Byte) :
    setByte s o b = { s with x := setLane s.x ((o - 0x40) / 4) o b } := by
  unfold setByte; rw [hr]

/-- Offsets of one window are equal when they name the same word and the same lane; a byte of another window stays by
the frame of `setByte`. -/
theorem getByte_setByte (s : State) {o : Nat} (hr : regionOf o = .h ∨ regionOf o = .x) (o' : Nat) (b : Byte) :
    getByte (setByte s o b) o' = if o' = o then b else getByte s o' := by
  by_cases same : regionOf o' = regionOf o
  · rcases hr with hr | hr
    · have hr' := same.trans hr
      have bounds := (regionOf_h o).1 hr
      have bounds' := (regionOf_h o').1 hr'
      have place : ((o' - 0x10) / 4 = (o - 0x10) / 4 ∧ o' % 4 = o % 4) ↔ o' = o := by omega
      rw [setByte_of_h s hr, getByte_of_h _ hr', byteOf_wordAt_setLane s.h (by omega), getByte_of_h s hr']
      simp only [place]
    · have hr' := same.trans hr
      have bounds := (regionOf_x o).1 hr
      have bounds' := (regionOf_x o').1 hr'
      have place : ((o' - 0x40) / 4 = (o - 0x40) / 4 ∧ o' % 4 = o % 4) ↔ o' = o := by omega
      rw [setByte_of_x s hr, getByte_of_x _ hr', byteOf_wordAt_setLane s.x (by omega), getByte_of_x s hr']
      simp only [place]
  · obtain ⟨⟨h, x, frame⟩, keepsH, keepsX⟩ := setByte_frame s o b
    rw [if_neg fun ho => same (congrArg regionOf ho)]
    exact getByte_congr (fun hr' => keepsH fun hr => same (hr'.trans hr.symm))
      (fun hr' => keepsX fun hr => same (hr'.trans hr.symm)) (by rw [frame])

/-- Settles O41. -/
theorem setByteThenGetByte : Obligations.SetByteThenGetByte :=
  fun s o o' b inWindow => getByte_setByte s (inWindow.imp (regionOf_h o).2 (regionOf_x o).2) o' b

/-! ### Writing several bytes -/

/-- A write into the H and X windows stores byte `j` of `v` at offset `o + j`, for `j` from `k` on, and nothing else. -/
theorem getByte_writeBytes (v : Word) (o k n : Nat) (s : State)
    (ho : ∀ j, k ≤ j → j < k + n → regionOf (o + j) = .h ∨ regionOf (o + j) = .x) (o' : Nat) :
    getByte (writeBytes v o k n s) o' =
      if o + k ≤ o' ∧ o' < o + k + n then byteOf v (o' - o) else getByte s o' := by
  induction n generalizing k s with
  | zero => rw [if_neg (by omega)]; rfl
  | succ n ih =>
    rw [writeBytes, ih (k + 1) _ fun j hk hj => ho j (by omega) (by omega),
      getByte_setByte s (ho k (by omega) (by omega))]
    by_cases first : o' = o + k
    · subst first
      rw [if_neg (by omega), if_pos rfl, if_pos (by omega), Nat.add_sub_cancel_left]
    · have range : (o + (k + 1) ≤ o' ∧ o' < o + (k + 1) + n) ↔ (o + k ≤ o' ∧ o' < o + k + (n + 1)) := by omega
      simp only [if_neg first, range]

/-- A write of the low byte alone. -/
theorem writeBytes_zeroExtend_one (b : Byte) (o : Nat) (s : State) :
    writeBytes (b.zeroExtend 32) o 0 1 s = setByte s o b := by
  have low : byteOf (b.zeroExtend 32) 0 = b := by
    apply BitVec.eq_of_toNat_eq
    rw [byteOf_toNat, BitVec.toNat_setWidth]
    omega
  rw [writeBytes, low]
  rfl

/-- A write is its 1-byte writes in order (R38). -/
theorem writeBytes_eq_foldl (v : Word) (o k n : Nat) (s : State) :
    writeBytes v o k n s =
      (List.range' k n).foldl (fun t j => writeBytes ((byteOf v j).zeroExtend 32) (o + j) 0 1 t) s := by
  induction n generalizing k s with
  | zero => rfl
  | succ n ih => rw [List.range'_succ, List.foldl_cons, writeBytes_zeroExtend_one, writeBytes, ih]

/-! ### Words of the windows -/

/-- In a window that starts at a word, the offset of byte `k` of word `i` names that word and that lane. -/
theorem byteOf_wordAt_lane {n base k : Nat} (v : Vector Word n) (i : Fin n) (hb : base % 4 = 0) (hk : k < 4) :
    byteOf (wordAt v ((base + 4 * i.val + k - base) / 4)) ((base + 4 * i.val + k) % 4) = byteOf v[i] k := by
  have word : (base + 4 * i.val + k - base) / 4 = i.val := by omega
  have lane : (base + 4 * i.val + k) % 4 = k := by omega
  rw [word, lane, wordAt_eq v i.isLt]
  rfl

theorem getByte_h (s : State) (i : Fin 5) {k : Nat} (hk : k < 4) :
    getByte s (0x10 + 4 * i.val + k) = byteOf s.h[i] k := by
  rw [getByte_of_h s ((regionOf_h _).2 (by omega)), byteOf_wordAt_lane s.h i rfl hk]

theorem getByte_x (s : State) (i : Fin 16) {k : Nat} (hk : k < 4) :
    getByte s (0x40 + 4 * i.val + k) = byteOf s.x[i] k := by
  rw [getByte_of_x s ((regionOf_x _).2 (by omega)), byteOf_wordAt_lane s.x i rfl hk]

theorem getByte_y (s : State) (i : Fin 16) {k : Nat} (hk : k < 4) :
    getByte s (0x80 + 4 * i.val + k) = byteOf s.y[i] k := by
  rw [getByte_of_y s ((regionOf_y _).2 (by omega)), byteOf_wordAt_lane s.y i rfl hk]

/-- Four bytes read as a word's (R34). -/
theorem readValue_eq_word {s : State} {o : Nat} {w : Word} (hw : ∀ k < 4, getByte s (o + k) = byteOf w k) :
    readValue s o 4 = w.toNat := by
  have h0 := hw 0 (by decide)
  have h1 := hw 1 (by decide)
  have h2 := hw 2 (by decide)
  have h3 := hw 3 (by decide)
  have sum := le32_toNat (byteOf w 0) (byteOf w 1) (byteOf w 2) (byteOf w 3)
  rw [le32_bytes] at sum
  simp only [readValue, Nat.add_assoc, Nat.add_zero, Nat.reduceAdd] at h0 h1 h2 h3 ⊢
  rw [h0, h1, h2, h3, sum]
  ring

/-- A register array whose word `i` has got the bytes of `w`, and whose other bytes have stayed. -/
theorem eq_set_of_bytes {n : Nat} {v v' : Vector Word n} {i : Fin n} {w : Word}
    (hb : ∀ (j : Fin n) (k : Nat), k < 4 → byteOf v'[j] k = if j = i then byteOf w k else byteOf v[j] k) :
    v' = v.set i w := by
  apply Vector.ext
  intro j hj
  apply word_eq_of_bytes
  intro k hk
  have byte := hb ⟨j, hj⟩ k hk
  by_cases hji : j = i.val
  · subst hji
    simpa using byte
  · have other : (⟨j, hj⟩ : Fin n) ≠ i := fun e => hji (congrArg Fin.val e)
    rw [if_neg other] at byte
    rw [Vector.getElem_set_ne _ _ (Ne.symm hji)]
    exact byte

/-- Writing the four bytes of word `i` of a window leaves its other words. -/
theorem getByte_writeBytes_word (s : State) (v : Word) {base i : Nat}
    (hr : ∀ k < 4, regionOf (base + 4 * i + k) = .h ∨ regionOf (base + 4 * i + k) = .x) (j : Nat) {k : Nat}
    (hk : k < 4) :
    getByte (writeBytes v (base + 4 * i) 0 4 s) (base + 4 * j + k) =
      if j = i then byteOf v k else getByte s (base + 4 * j + k) := by
  have place : (base + 4 * i + 0 ≤ base + 4 * j + k ∧ base + 4 * j + k < base + 4 * i + 0 + 4) ↔ j = i := by omega
  rw [getByte_writeBytes v _ 0 4 s fun k' _ hk' => hr k' (by omega)]
  simp only [place]
  by_cases hj : j = i
  · rw [if_pos hj, if_pos hj, hj, Nat.add_sub_cancel_left]
  · rw [if_neg hj, if_neg hj]

theorem writeBytes_h_word (s : State) (v : Word) (i : Fin 5) :
    writeBytes v (0x10 + 4 * i.val) 0 4 s = { s with h := s.h.set i v } := by
  have inH : ∀ k < 4, regionOf (0x10 + 4 * i.val + k) = .h := fun k hk => (regionOf_h _).2 (by omega)
  have words : (writeBytes v (0x10 + 4 * i.val) 0 4 s).h = s.h.set i v := by
    refine eq_set_of_bytes fun j k hk => ?_
    rw [← getByte_h _ j hk, getByte_writeBytes_word s v (fun k hk => .inl (inH k hk)) j.val hk, getByte_h s j hk]
    simp only [Fin.ext_iff]
  have keepsX : (writeBytes v (0x10 + 4 * i.val) 0 4 s).x = s.x :=
    writeBytes_x _ _ _ _ _ fun k _ hk => by rw [inH k (by omega)]; decide
  obtain ⟨h, x, frame⟩ := writeBytes_frame v (0x10 + 4 * i.val) 0 4 s
  rw [frame] at words keepsX ⊢
  exact congrArg₂ (fun h x => { s with h := h, x := x }) words keepsX

theorem writeBytes_x_word (s : State) (v : Word) (i : Fin 16) :
    writeBytes v (0x40 + 4 * i.val) 0 4 s = { s with x := s.x.set i v } := by
  have inX : ∀ k < 4, regionOf (0x40 + 4 * i.val + k) = .x := fun k hk => (regionOf_x _).2 (by omega)
  have words : (writeBytes v (0x40 + 4 * i.val) 0 4 s).x = s.x.set i v := by
    refine eq_set_of_bytes fun j k hk => ?_
    rw [← getByte_x _ j hk, getByte_writeBytes_word s v (fun k hk => .inr (inX k hk)) j.val hk, getByte_x s j hk]
    simp only [Fin.ext_iff]
  have keepsH : (writeBytes v (0x40 + 4 * i.val) 0 4 s).h = s.h :=
    writeBytes_h _ _ _ _ _ fun k _ hk => by rw [inX k (by omega)]; decide
  obtain ⟨h, x, frame⟩ := writeBytes_frame v (0x40 + 4 * i.val) 0 4 s
  rw [frame] at words keepsH ⊢
  exact congrArg₂ (fun h x => { s with h := h, x := x }) keepsH words

/-- Settles O42, word by word from the bytes. -/
theorem wordAccess : Obligations.WordAccess := by
  refine ⟨fun s i => ?_, fun s i => ⟨?_, ?_⟩, writeBytes_h_word, writeBytes_x_word, fun s v o n => ?_⟩
  · exact readValue_eq_word fun k hk => getByte_h s i hk
  · exact readValue_eq_word fun k hk => getByte_x s i hk
  · exact readValue_eq_word fun k hk => getByte_y s i hk
  · rw [writeBytes_eq_foldl, List.range_eq_range']

end Sys2Proof.Machine
end

section
/-!
What a transaction of the host answers and does (20_memory.md R38, R40, R42; 60_exceptions.md R103).
-/

namespace Sys2Proof.Machine

/-! ### Reads -/

/-- Settles O43: a read only answers, and counts a free value where it takes one. -/
theorem readsHaveNoSideEffect : Obligations.ReadsHaveNoSideEffect := by
  intro s t off n event h
  rcases event with he | he
  · rw [step_of_read he] at h
    obtain ⟨u, hu, rfl⟩ := afterMove_next h
    obtain ⟨a, rfl | rfl⟩ := memRead_next hu
    · exact ⟨⟨rfl, rfl, rfl, rfl, rfl, rfl⟩, rfl⟩
    · exact ⟨⟨rfl, rfl, rfl, rfl, rfl, rfl⟩, rfl⟩
  · rw [step_of_wait he] at h
    obtain ⟨u, hu, rfl⟩ := afterMove_next h
    obtain ⟨inbox, a, rfl⟩ := pollStatus_next hu
    exact ⟨⟨rfl, rfl, rfl, rfl, rfl, rfl⟩, rfl⟩

/-- The little-endian value of the bytes read (R38). -/
theorem readValue_eq_sum (s : State) (o n : Nat) :
    readValue s o n = ((List.range n).map fun k => (getByte s (o + k)).toNat * 2 ^ (8 * k)).sum := by
  induction n generalizing o with
  | zero => rfl
  | succ n ih =>
    have shifted : ∀ k, (getByte s (o + (k + 1))).toNat * 2 ^ (8 * (k + 1)) =
        2 ^ 8 * ((getByte s (o + 1 + k)).toNat * 2 ^ (8 * k)) := fun k => by
      rw [show o + (k + 1) = o + 1 + k by omega, Nat.mul_add, Nat.pow_add]
      ring
    rw [readValue, ih, List.range_succ_eq_map, List.map_cons, List.sum_cons, List.map_map, ← List.sum_map_mul_left]
    simp only [Function.comp_def, Nat.succ_eq_add_one, shifted, Nat.add_zero, Nat.mul_zero, Nat.pow_zero, Nat.mul_one]

theorem memRead_of_status {off : BitVec 8} {n : Nat} (ha : allowed off.toNat n .read = true)
    (hr : regionOf off.toNat = .status) (s : State) : memRead off n s = readStatus s := by
  rw [memRead, if_pos ha, if_pos hr]

/-- A read of what no pending command is working on. -/
theorem memRead_of_settled {off : BitVec 8} {n : Nat} {s : State} (ha : allowed off.toNat n .read = true)
    (hr : regionOf off.toNat ≠ .status)
    (hs : s.status.busy = false ∨ (regionOf off.toNat).unsettledWhileBusy = false) :
    memRead off n s = .next (s.answer (.data (readData s off.toNat n))) := by
  rw [memRead, if_pos ha, if_neg hr, if_neg (by rcases hs with h | h <;> simp [h])]

/-- A read of what a pending command is working on (R40). -/
theorem memRead_of_unsettled {off : BitVec 8} {n : Nat} {s : State} (ha : allowed off.toNat n .read = true)
    (hb : s.status.busy = true) (hu : (regionOf off.toNat).unsettledWhileBusy = true) :
    memRead off n s = .next (s.answer (.data (s.drawn n))).afterDraw := by
  have hr : regionOf off.toNat ≠ .status := fun hr => by rw [hr] at hu; cases hu
  rw [memRead, if_pos ha, if_neg hr, if_pos (by rw [hb, hu]; rfl)]

/-- An allowed read from 0x10 on is in a window. -/
theorem read_window {off n : Nat} (ha : allowed off n .read = true) (ho : 0x10 ≤ off) :
    regionOf off = .h ∨ regionOf off = .x ∨ regionOf off = .y := by
  obtain ⟨-, control⟩ | ⟨-, window⟩ := (mem_widths_read _ _).1 (allowed_width ha).1
  · rw [regionOf_cmd, regionOf_status, regionOf_blkcnt] at control
    omega
  · exact window

/-- An allowed read from 0x08 on is of BLKCNT or in a window, which a pending command may be working on. -/
theorem read_unsettled {off n : Nat} (ha : allowed off n .read = true) (ho : 0x08 ≤ off) :
    (regionOf off).unsettledWhileBusy = true := by
  have hr := read_region ha
  have notCmd : regionOf off ≠ .cmd := by rw [ne_eq, regionOf_cmd]; omega
  have notStatus : regionOf off ≠ .status := by rw [ne_eq, regionOf_status]; omega
  revert hr notCmd notStatus
  cases regionOf off <;> simp [Region.unsettledWhileBusy]

theorem readData_window {s : State} {off n : Nat} (hr : regionOf off = .h ∨ regionOf off = .x ∨ regionOf off = .y) :
    readData s off n = BitVec.ofNat 32 (readValue s off n) := by
  rcases hr with hr | hr | hr <;> rw [readData, hr]

/-- A read that answers `a` and does nothing else. -/
theorem stepsTo_of_memRead {s : State} {off : BitVec 8} {n : Nat} {a : Answer} (he : s.hostDoes (.read off n))
    (hm : memRead off n s.hostActs = .next (s.hostActs.answer a)) : s.stepsTo (s.taken a) :=
  stepsTo_of_handOver (by rw [step_of_read he, hm]; rfl)

/-- Settles O39, region by region. -/
theorem readAnswers : Obligations.ReadAnswers := by
  intro s off n he ha hcode
  refine ⟨?_, ?_, ?_, fun ho hb => ?_, fun ho hb => ?_⟩
  · rintro rfl
    exact stepsTo_of_memRead he (memRead_of_settled ha (by decide) (.inr rfl))
  · rintro rfl
    have notReserved : s.status.reserved = false := decide_eq_false (by omega)
    exact stepsTo_of_memRead he ((memRead_of_status ha rfl _).trans (readStatus_answers notReserved))
  · rintro rfl hb
    exact stepsTo_of_memRead he (memRead_of_settled ha (by decide) (.inl hb))
  · have window := read_window ha ho
    have notStatus : regionOf off.toNat ≠ .status := by rcases window with hr | hr | hr <;> simp [hr]
    apply stepsTo_of_memRead he
    rw [memRead_of_settled (s := s.hostActs) ha notStatus (.inl hb), readData_window window, readValue_eq_sum]
    rfl
  · rw [step_of_read he, memRead_of_unsettled (s := s.hostActs) ha hb (read_unsettled ha ho)]
    rfl

/-! ### Writes -/

theorem memWrite_of_status {off : BitVec 8} {n : Nat} (ha : allowed off.toNat n .write = true)
    (hr : regionOf off.toNat = .status) (v : Word) (s : State) :
    memWrite off n v s = .done (.next ((s.answer .ok).writeStatus v)) := by
  rw [memWrite, if_pos ha, hr]

theorem memWrite_of_window {off : BitVec 8} {n : Nat} (ha : allowed off.toNat n .write = true)
    (hr : regionOf off.toNat = .h ∨ regionOf off.toNat = .x) (v : Word) (s : State) :
    memWrite off n v s = .done (writeWindow off.toNat n v (s.answer .ok)) := by
  rcases hr with hr | hr <;> rw [memWrite, if_pos ha, hr]

/-- An allowed write from 0x10 on is in the H or the X window. -/
theorem write_window {off n : Nat} (ha : allowed off n .write = true) (ho : 0x10 ≤ off) :
    regionOf off = .h ∨ regionOf off = .x := by
  obtain hr | hr | hr := write_region ha
  · rw [regionOf_cmd] at hr; omega
  · rw [regionOf_status] at hr; omega
  · exact hr

/-- A write that is no command and leaves `u`. -/
theorem stepsTo_of_memWrite {s u : State} {off : BitVec 8} {n : Nat} {v : Word} (he : s.hostDoes (.write off n v))
    (hm : memWrite off n v s.hostActs = .done (.next u)) : s.stepsTo u :=
  stepsTo_of_handOver (by rw [step_of_write he, hm]; rfl)

/-- Settles O40: a window write while idle stores by `getByte_writeBytes`. -/
theorem writeEffects : Obligations.WriteEffects := by
  intro s off n v he ha
  refine ⟨?_, fun ho hb => ?_, fun ho hb => ?_⟩
  · rintro rfl
    have acknowledged := stepsTo_of_memWrite he (memWrite_of_status ha rfl v _)
    rw [State.hostActs_answer, State.writeStatus, State.taken_status] at acknowledged
    cases hv : v.getLsbD 1 with
    | true => rw [s.status.write_set hv] at acknowledged; exact acknowledged
    | false => rw [s.status.write_clear hv] at acknowledged; exact acknowledged
  · apply stepsTo_of_memWrite he
    rw [memWrite_of_window ha (write_window ha ho), writeWindow_of_busy (s := s.hostActs.answer .ok) hb]
    rfl
  · have window := write_window ha ho
    have inWindow : ∀ j, 0 ≤ j → j < 0 + n → regionOf (off.toNat + j) = .h ∨ regionOf (off.toNat + j) = .x :=
      fun j _ hj => by rwa [window_region ha rfl window j (by omega)]
    obtain ⟨h, x, frame⟩ := writeBytes_frame v off.toNat 0 n (s.taken .ok)
    refine ⟨h, x, ?_, fun o => ?_⟩
    · apply stepsTo_of_memWrite he
      rw [memWrite_of_window ha window, State.hostActs_answer, writeWindow_of_idle (s := s.taken .ok) hb, frame]
    · have byte := getByte_writeBytes v off.toNat 0 n (s.taken .ok) inWindow o
      rw [frame] at byte
      exact byte

theorem writeCmd_of_decode {w : Word} {i : Instr} (h : decode w = .command i) (s : State) :
    writeCmd w s = .run i s := by
  rw [writeCmd, h]

/-- Settles O6. -/
theorem stepRunsDecodedCommand : Obligations.StepRunsDecodedCommand := by
  intro s w i he hd
  rw [step_of_command he, writeCmd_of_decode hd]

end Sys2Proof.Machine
end

section
/-!
The command word as a code (30_encoding.md): a word is its four fields, a command is its opcode and its tail length, and
the decoder answers a command exactly for the word whose fields are that command's. The two round trips, the agreement
with the opcode table and the cases of Illegal are read off that one equivalence.
-/

namespace Sys2Proof

/-! ### A word is its fields (R50) -/

theorem word_eq_iff_fields {v w : Word} :
    v = w ↔ rsv1Field v = rsv1Field w ∧ rsv0Field v = rsv0Field w ∧ opField v = opField w ∧
      tailField v = tailField w := by
  refine ⟨by rintro rfl; exact ⟨rfl, rfl, rfl, rfl⟩, fun ⟨h1, h0, hop, htail⟩ => BitVec.eq_of_toNat_eq ?_⟩
  rw [← BitVec.toNat_inj] at h1 h0 hop htail
  rw [rsv1Field_toNat, rsv1Field_toNat] at h1
  rw [rsv0Field_toNat, rsv0Field_toNat] at h0
  rw [opField_toNat, opField_toNat] at hop
  rw [tailField_toNat, tailField_toNat] at htail
  omega

/-- Masking a word masks each of its fields. -/
theorem and_eq_iff_fields {w mask pattern : Word} :
    w &&& mask = pattern ↔
      rsv1Field w &&& rsv1Field mask = rsv1Field pattern ∧ rsv0Field w &&& rsv0Field mask = rsv0Field pattern ∧
      opField w &&& opField mask = opField pattern ∧ tailField w &&& tailField mask = tailField pattern := by
  rw [word_eq_iff_fields]
  simp only [rsv1Field, rsv0Field, opField, tailField, BitVec.extractLsb'_and]

/-! ### Decoding a word to a command (R53) -/

/-- A command has an encoding when its tail length, if it takes one, fits in six bits (R51). -/
theorem Instr.wellFormed_iff_tail {i : Instr} : i.wellFormed = true ↔ i.tail ≤ 63 := by
  cases i <;> simp [Instr.wellFormed, Instr.tail]

/-- Which commands have the fields `op` and `tail`: those of R53's cases. -/
theorem Instr.opcode_tail_iff {op : BitVec 4} {tail : BitVec 6} {i : Instr} :
    op.toNat = i.opcode ∧ tail.toNat = i.tail ↔
      (op = 3 ∧ i = .final tail.toNat) ∨ (op = 4 ∧ i = .format tail.toNat) ∨
      (tail = 0 ∧ ((op = 0 ∧ i = .nop) ∨ (op = 1 ∧ i = .init) ∨ (op = 2 ∧ i = .compress) ∨ (op = 5 ∧ i = .rawcomp))) := by
  cases i <;> simp [Instr.opcode, Instr.tail, ← BitVec.toNat_inj, and_comm, eq_comm]

/-- The decoder answers a command exactly for the words with that command's fields. -/
theorem decode_eq_command_iff {w : Word} {i : Instr} :
    decode w = .command i ↔
      rsv1Field w = 0 ∧ rsv0Field w = 0 ∧ (opField w).toNat = i.opcode ∧ (tailField w).toNat = i.tail := by
  constructor
  · intro h
    obtain ⟨h1, h0⟩ := decode_command_reserved h
    refine ⟨h1, h0, Instr.opcode_tail_iff.2 ?_⟩
    simpa [h] using decode_of_fields h1 h0
  · rintro ⟨h1, h0, hop, htail⟩
    cases i <;> simp [decode, withoutTail, h1, h0, hop, htail, Instr.opcode, Instr.tail]

/-- Settles O1: the word of a well-formed command has that command's fields. -/
theorem decodeOfEncode : Obligations.DecodeOfEncode :=
  fun _ hi => decode_eq_command_iff.2 (encode_fields (Instr.wellFormed_iff_tail.1 hi))

/-- Settles O2: a word and the word of the command it decodes to have the same fields. -/
theorem encodeOfDecode : Obligations.EncodeOfDecode := by
  intro w i h
  have hi := Machine.wellFormed_of_decode h
  refine ⟨hi, word_eq_iff_fields.2 ?_⟩
  obtain ⟨h1, h0, hop, htail⟩ := decode_eq_command_iff.1 h
  obtain ⟨h1', h0', hop', htail'⟩ := encode_fields (Instr.wellFormed_iff_tail.1 hi)
  exact ⟨h1'.trans h1.symm, h0'.trans h0.symm, BitVec.eq_of_toNat_eq (hop'.trans hop.symm),
    BitVec.eq_of_toNat_eq (htail'.trans htail.symm)⟩

/-- Decoding and encoding are inverse to each other on the well-formed commands. -/
theorem decode_eq_command_iff_encode {w : Word} {i : Instr} :
    decode w = .command i ↔ i.wellFormed = true ∧ encode i = w :=
  ⟨encodeOfDecode w i, by rintro ⟨hi, rfl⟩; exact decodeOfEncode i hi⟩

/-! ### The opcode table (R53) -/

/-- The mask of a row with a tail looks at every field but TAIL. -/
theorem and_tailMask_eq_iff {w : Word} {op : BitVec 4} :
    w &&& 0xFFFFC0FF = op.setWidth 32 ↔ rsv1Field w = 0 ∧ rsv0Field w = 0 ∧ opField w = op := by
  obtain ⟨mask1, mask0, maskOp, maskTail⟩ : rsv1Field 0xFFFFC0FF = BitVec.allOnes 18 ∧
      rsv0Field 0xFFFFC0FF = BitVec.allOnes 4 ∧ opField 0xFFFFC0FF = BitVec.allOnes 4 ∧
      tailField 0xFFFFC0FF = 0 := by decide
  have pattern : rsv1Field (op.setWidth 32) = 0 ∧ rsv0Field (op.setWidth 32) = 0 ∧
      opField (op.setWidth 32) = op ∧ tailField (op.setWidth 32) = 0 := by revert op; decide
  rw [and_eq_iff_fields, mask1, mask0, maskOp, maskTail, BitVec.and_allOnes, BitVec.and_allOnes, BitVec.and_allOnes]
  simp [pattern]

/-- The full mask looks at the whole word, so a row without tail matches its command's word alone. -/
theorem fullMask_matches_iff {w : Word} {i : Instr} (hi : i.wellFormed = true) :
    w &&& 0xFFFFFFFF = encode i ↔ decode w = .command i := by
  have whole : w &&& 0xFFFFFFFF = w := BitVec.and_allOnes
  rw [whole, decode_eq_command_iff_encode, eq_comm, and_iff_right hi]

theorem matches_final_iff {w : Word} : w &&& 0xFFFFC0FF = 0x00000003 ↔ ∃ r, decode w = .command (.final r) := by
  simpa [decode_eq_command_iff, Instr.opcode, Instr.tail, ← BitVec.toNat_inj] using
    and_tailMask_eq_iff (w := w) (op := 3)

theorem matches_format_iff {w : Word} : w &&& 0xFFFFC0FF = 0x00000004 ↔ ∃ r, decode w = .command (.format r) := by
  simpa [decode_eq_command_iff, Instr.opcode, Instr.tail, ← BitVec.toNat_inj] using
    and_tailMask_eq_iff (w := w) (op := 4)

theorem Instr.exists_iff {P : Instr → Prop} :
    (∃ i, P i) ↔ P .nop ∨ P .init ∨ P .compress ∨ (∃ r, P (.final r)) ∨ (∃ r, P (.format r)) ∨ P .rawcomp := by
  constructor
  · rintro ⟨i, hi⟩
    cases i with
    | nop => exact .inl hi
    | init => exact .inr (.inl hi)
    | compress => exact .inr (.inr (.inl hi))
    | final r => exact .inr (.inr (.inr (.inl ⟨r, hi⟩)))
    | format r => exact .inr (.inr (.inr (.inr (.inl ⟨r, hi⟩))))
    | rawcomp => exact .inr (.inr (.inr (.inr (.inr hi))))
  · rintro (h | h | h | ⟨r, h⟩ | ⟨r, h⟩ | h) <;> exact ⟨_, h⟩

/-- A row of the table matches a word exactly when the word decodes to a command of the row's mnemonic. -/
theorem row_matches_iff {row : OpcodeRow} (h : row ∈ opcodeTable) (w : Word) :
    w &&& row.mask = row.pattern ↔ ∃ i, decode w = .command i ∧ i.mnemonic = row.mnemonic := by
  simp only [opcodeTable, List.mem_cons, List.not_mem_nil, or_false] at h
  rcases h with rfl | rfl | rfl | rfl | rfl | rfl <;>
    simp only [Instr.exists_iff, Instr.mnemonic, String.reduceEq, and_true, and_false, exists_const, or_self,
      or_false, false_or]
  · exact fullMask_matches_iff (i := .nop) rfl
  · exact fullMask_matches_iff (i := .init) rfl
  · exact fullMask_matches_iff (i := .compress) rfl
  · exact matches_final_iff
  · exact matches_format_iff
  · exact fullMask_matches_iff (i := .rawcomp) rfl

/-- Every command has a row. -/
theorem exists_row (i : Instr) : ∃ row ∈ opcodeTable, row.mnemonic = i.mnemonic := by
  cases i <;> simp [opcodeTable, Instr.mnemonic]

/-- No two rows have one mnemonic. -/
theorem rows_of_mnemonic_length (i : Instr) :
    (opcodeTable.filter fun row => row.mnemonic = i.mnemonic).length ≤ 1 := by
  cases i <;> simp [opcodeTable, Instr.mnemonic]

/-- The rows that match a word name the command it decodes to, and no other. -/
theorem matching_row_iff (w : Word) (mnemonic : String) :
    (∃ row ∈ opcodeTable, row.mnemonic = mnemonic ∧ w &&& row.mask = row.pattern) ↔
      ∃ i, decode w = .command i ∧ i.mnemonic = mnemonic := by
  constructor
  · rintro ⟨row, hrow, rfl, hmatch⟩
    exact (row_matches_iff hrow w).1 hmatch
  · rintro ⟨i, hd, rfl⟩
    obtain ⟨row, hrow, hname⟩ := exists_row i
    exact ⟨row, hrow, hname, (row_matches_iff hrow w).2 ⟨i, hd, hname.symm⟩⟩

/-- At most one row matches: those that do have the mnemonic of the command the word decodes to. -/
theorem matching_rows_length (w : Word) :
    (opcodeTable.filter fun row => w &&& row.mask = row.pattern).length ≤ 1 := by
  cases hd : decode w with
  | command i =>
    have matching : (opcodeTable.filter fun row => w &&& row.mask = row.pattern) =
        opcodeTable.filter fun row => row.mnemonic = i.mnemonic :=
      List.filter_congr fun row hrow => by simp [row_matches_iff hrow, hd, eq_comm]
    rw [matching]
    exact rows_of_mnemonic_length i
  | illegal why =>
    have matching : (opcodeTable.filter fun row => w &&& row.mask = row.pattern) = [] :=
      List.filter_eq_nil_iff.2 fun row hrow => by simp [row_matches_iff hrow, hd]
    simp [matching]

/-- Settles O3: the fields R53 writes as bit ranges are the decoder's, and the rows of the table stand for its answers. -/
theorem decoderMatchesOpcodeTable : Obligations.DecoderMatchesOpcodeTable := by
  intro w
  refine ⟨fun i => ?_, matching_row_iff w, matching_rows_length w, fun unmatched => ?_⟩
  · rw [decode_eq_command_iff, Instr.opcode_tail_iff]
    rfl
  · cases hd : decode w with
    | illegal why => exact ⟨why, rfl⟩
    | command i =>
      obtain ⟨row, hrow, -, hmatch⟩ := (matching_row_iff w _).2 ⟨i, hd, rfl⟩
      exact absurd hmatch (unmatched row hrow)

/-! ### Illegal words (R54) -/

theorem decode_illegal_iff {w : Word} :
    (∃ why, decode w = .illegal why) ↔
      rsv1Field w ≠ 0 ∨ rsv0Field w ≠ 0 ∨ 6 ≤ (opField w).toNat ∨
      (tailField w ≠ 0 ∧ opField w ≠ 3 ∧ opField w ≠ 4) := by
  by_cases h1 : rsv1Field w = 0
  · by_cases h0 : rsv0Field w = 0
    · obtain ⟨hop, hd⟩ | ⟨hop, hd⟩ | ⟨htail, noTail⟩ | ⟨hop, hd⟩ | ⟨htail, h3, h4, hd⟩ := decode_of_fields h1 h0
      · simp [h1, h0, hop, hd]
      · simp [h1, h0, hop, hd]
      · rcases noTail with ⟨hop, hd⟩ | ⟨hop, hd⟩ | ⟨hop, hd⟩ | ⟨hop, hd⟩ <;> simp [h1, h0, hop, htail, hd]
      · exact iff_of_true ⟨_, hd⟩ (.inr (.inr (.inl hop)))
      · exact iff_of_true ⟨_, hd⟩ (.inr (.inr (.inr ⟨htail, h3, h4⟩)))
    · exact iff_of_true ⟨_, decode_rsv0 h1 h0⟩ (.inr (.inl h0))
  · exact iff_of_true ⟨_, decode_rsv1 h1⟩ (.inl h1)

theorem Machine.writeCmd_of_illegal {w : Word} {why : Illegal} (hd : decode w = .illegal why) {s : Machine.State}
    (hb : s.status.busy = false) : Machine.writeCmd w s = .done (.next (s.cmdError .illegalCmd)) := by
  rw [Machine.writeCmd, hd, Machine.unlessBusy_of_idle hb]

/-- Settles O4: a word is Illegal in the cases of R54, and its write to CMD is the rejection `State.cmdError`. -/
theorem illegalWordIsRejected : Obligations.IllegalWordIsRejected := by
  refine fun w => ⟨decode_illegal_iff, ?_⟩
  rintro s he hb ⟨why, hd⟩
  apply Machine.stepsTo_of_handOver
  rw [Machine.step_of_command he, Machine.writeCmd_of_illegal hd (s := s.taken .ok) hb]
  rfl

/-! ### The words of R55 -/

/-- Settles O5, by running the decoder on the twelve words. -/
theorem commandWordsDecode : Obligations.CommandWordsDecode := by
  unfold Obligations.CommandWordsDecode
  decide

end Sys2Proof
end

section
/-!
The length field (40_padding.md R60): `lo` and `hi` as numbers, and the eight bytes of both as the bytes of `8L`.
-/

namespace Sys2Proof.Machine

theorem lengthLo_toNat (len : Nat) : (lengthLo len).toNat = 8 * len % 2 ^ 32 := by
  rw [lengthLo, BitVec.toNat_ofNat, Nat.mul_comm]
  rfl

theorem lengthHi_toNat {len : Nat} (h : len < 2 ^ 32) : (lengthHi len).toNat = len / 2 ^ 29 := by
  rw [lengthHi, BitVec.toNat_ofNat]
  omega

/-- `len >> 29` is the carry of `8 * len` out of 32 bits, read in unbounded arithmetic (90_conflicts.md C2). -/
theorem div_two_pow_29_eq (len : Nat) : len / 2 ^ 29 = 8 * len / 2 ^ 32 := by omega

theorem lengthByte_of_lt (len : Nat) {k : Nat} (h : k < 4) : lengthByte len k = byteOf (lengthLo len) k := if_pos h

theorem lengthByte_add_four (len k : Nat) : lengthByte len (4 + k) = byteOf (lengthHi len) k := by
  rw [lengthByte, if_neg (by omega), Nat.add_sub_cancel_left]

theorem lengthByte_toNat {len k : Nat} (h : len < 2 ^ 32) (hk : k < 8) :
    (lengthByte len k).toNat = 8 * len / 2 ^ (8 * k) % 2 ^ 8 := by
  by_cases hlow : k < 4
  · rw [lengthByte_of_lt len hlow, byteOf_toNat, lengthLo_toNat]
    interval_cases k <;> omega
  · obtain ⟨j, rfl⟩ := Nat.exists_eq_add_of_le (Nat.le_of_not_lt hlow)
    rw [lengthByte_add_four, byteOf_toNat, lengthHi_toNat h, div_two_pow_29_eq, Nat.div_div_eq_div_mul, ← pow_add]
    congr 3
    omega

theorem getElem?_lengthField (len : Nat) {k : Nat} (hk : k < 8) :
    (wordsToBytes [lengthLo len, lengthHi len])[k]? = some (lengthByte len k) := by
  interval_cases k <;> rfl

/-- Settles O23, byte by byte from the two words. -/
theorem lengthWords : Obligations.LengthWords := by
  intro len hlen
  have h : len < 2 ^ 32 := by omega
  have hhi := lengthHi_toNat h
  refine ⟨lengthLo_toNat len, hhi.trans (div_two_pow_29_eq len), hhi, by omega, fun k hk => ?_⟩
  rw [getElem?_lengthField len hk, Option.map_some, lengthByte_toNat h hk]

end Sys2Proof.Machine
end

section
/-!
The formatter (40_padding.md R63, R64), first byte by byte, one lemma for each kind of byte, then word by word.
-/

namespace Sys2Proof.Machine

@[simp] theorem tailNeedsTwo_eq_true (r : Nat) : tailNeedsTwo r = true ↔ 56 ≤ r := decide_eq_true_iff

@[simp] theorem tailNeedsTwo_eq_false (r : Nat) : tailNeedsTwo r = false ↔ r < 56 := by
  rw [tailNeedsTwo, decide_eq_false_iff_not, Nat.not_le]

/-! ### The bytes of the trailer blocks -/

/-- The length field starts past every tail of at most 55 bytes, so it overwrites no message byte. -/
theorem firstByte_message (q : Nat) {r k : Nat} (m : Block) (h : k < r) : firstByte q r m k = blockByte m k := by
  rw [firstByte, if_neg (by rw [tailNeedsTwo_eq_false]; omega), tailByte, if_pos h]

theorem firstByte_marker (q r : Nat) (m : Block) : firstByte q r m r = 0x80 := by
  rw [firstByte, if_neg (by rw [tailNeedsTwo_eq_false]; omega), tailByte, if_neg (Nat.lt_irrefl r), if_pos rfl]

theorem firstByte_zero (q : Nat) {r k : Nat} (m : Block) (h : r < k) (hk : k < 56 ∨ 56 ≤ r) :
    firstByte q r m k = 0 := by
  rw [firstByte, if_neg (by rw [tailNeedsTwo_eq_false]; omega), tailByte, if_neg (by omega), if_neg (by omega)]

theorem firstByte_length (q : Nat) {r k : Nat} (m : Block) (h : r < 56) (hk : 56 ≤ k) :
    firstByte q r m k = lengthByte (messageLength q r) (k - 56) := by
  rw [firstByte, if_pos (by rw [tailNeedsTwo_eq_false]; omega)]

theorem secondByte_zero (q : Nat) {r k : Nat} (h : r < 56 ∨ k < 56) : secondByte q r k = 0 := by
  rw [secondByte, if_neg (by rw [tailNeedsTwo_eq_true]; omega)]

theorem secondByte_length (q : Nat) {r k : Nat} (h : 56 ≤ r) (hk : 56 ≤ k) :
    secondByte q r k = lengthByte (messageLength q r) (k - 56) := by
  rw [secondByte, if_pos (by rw [tailNeedsTwo_eq_true]; omega)]

theorem firstByte_congr (q : Nat) {r : Nat} {m m' : Block} (h : ∀ k < r, blockByte m k = blockByte m' k) (k : Nat) :
    firstByte q r m k = firstByte q r m' k := by
  have htail : tailByte r m k = tailByte r m' k := by
    by_cases hk : k < r
    · rw [tailByte, tailByte, if_pos hk, if_pos hk, h k hk]
    · rw [tailByte, tailByte, if_neg hk, if_neg hk]
  rw [firstByte, firstByte, htail]

/-! ### What formatting depends on and keeps -/

/-- Settles O27, byte by byte. -/
theorem formatterIgnoresPastTail : Obligations.FormatterIgnoresPastTail := by
  intro q r m m' _ h
  refine block_eq_of_bytes fun k hk => ?_
  rw [blockByte_fmtFirst q r m hk, blockByte_fmtFirst q r m' hk, firstByte_congr q h k]

/-- Settles O28: X' agrees with X on the tail, and the formatter reads no more than the tail. -/
theorem formatTwiceSameBlocks : Obligations.FormatTwiceSameBlocks := by
  intro q r m hr
  have kept : ∀ k < r, blockByte (fmtFirst q r m) k = blockByte m k := fun k hk => by
    rw [blockByte_fmtFirst q r m (by omega), firstByte_message q m hk]
  exact ⟨kept, formatterIgnoresPastTail q r _ _ hr kept⟩

/-! ### The words of the trailer blocks -/

theorem getElem_blockOfBytes_eq {f : Nat → Byte} {w : Word} {i : Nat} (hi : i < 16)
    (h : ∀ k < 4, f (4 * i + k) = byteOf w k) : (blockOfBytes f)[i] = w :=
  word_eq_of_bytes fun k hk => by
    rw [byteOf_getElem _ hi hk, blockByte_blockOfBytes f (by omega), h k hk]

/-- The mask `2 ^ (8 * l) - 1` holds the lanes below `l`, and 0x80 moved up by `8 * l` fills lane `l`. -/
theorem byteOf_mask_and_marker {l k : Nat} (hl : l < 4) (hk : k < 4) :
    byteOf (BitVec.ofNat 32 (2 ^ (8 * l) - 1)) k = (if k < l then BitVec.allOnes 8 else 0) ∧
    byteOf ((0x80 : Word) <<< (8 * l)) k = if k = l then 0x80 else 0 := by
  interval_cases l <;> interval_cases k <;> decide

/-- The word with the marker 0x80 in lane `l`: the lanes below are those of `w`, the lanes above are 0. -/
theorem byteOf_markerWord (w : Word) {l k : Nat} (hl : l < 4) (hk : k < 4) :
    byteOf ((w &&& BitVec.ofNat 32 (2 ^ (8 * l) - 1)) ||| ((0x80 : Word) <<< (8 * l))) k =
      if k < l then byteOf w k else if k = l then 0x80 else 0 := by
  obtain ⟨mask, marker⟩ := byteOf_mask_and_marker hl hk
  rw [byteOf] at mask marker
  rw [byteOf, BitVec.extractLsb'_or, BitVec.extractLsb'_and, mask, marker, byteOf]
  by_cases h : k < l
  · rw [if_pos h, if_neg (by omega), if_pos h, BitVec.and_allOnes]
    exact BitVec.or_zero
  · rw [if_neg h, if_neg h]
    simp

theorem byteOf_zero (k : Nat) : byteOf 0 k = 0 := by simp [byteOf]

section Words

variable (q : Nat) {r : Nat} (m : Block)

theorem getElem_fmtFirst_message {i : Nat} (hi : i < 16) (h : i < r / 4) : (fmtFirst q r m)[i] = m[i] :=
  getElem_blockOfBytes_eq hi fun k hk => by
    rw [firstByte_message q m (by omega), byteOf_getElem m hi hk]

theorem getElem_fmtFirst_marker {i : Nat} (hi : i < 16) (h : i = r / 4) :
    (fmtFirst q r m)[i] =
      (m[i] &&& BitVec.ofNat 32 (2 ^ (8 * (r % 4)) - 1)) ||| ((0x80 : Word) <<< (8 * (r % 4))) :=
  getElem_blockOfBytes_eq hi fun k hk => by
    rw [byteOf_markerWord m[i] (by omega) hk]
    obtain hlow | hlane | hhigh := Nat.lt_trichotomy k (r % 4)
    · rw [if_pos hlow, firstByte_message q m (by omega), byteOf_getElem m hi hk]
    · rw [if_neg (by omega), if_pos hlane, show 4 * i + k = r by omega, firstByte_marker]
    · rw [if_neg (by omega), if_neg (by omega), firstByte_zero q m (by omega) (by omega)]

theorem getElem_fmtFirst_zero {i : Nat} (hi : i < 16) (h : r / 4 < i) (hl : i ≤ 13 ∨ 56 ≤ r) :
    (fmtFirst q r m)[i] = 0 :=
  getElem_blockOfBytes_eq hi fun k hk => by
    rw [firstByte_zero q m (by omega) (by omega), byteOf_zero]

theorem getElem_fmtFirst_lo (h : r < 56) : (fmtFirst q r m)[14] = lengthLo (messageLength q r) :=
  getElem_blockOfBytes_eq _ fun k hk => by
    rw [firstByte_length q m h (by omega), Nat.add_sub_cancel_left, lengthByte_of_lt _ hk]

theorem getElem_fmtFirst_hi (h : r < 56) : (fmtFirst q r m)[15] = lengthHi (messageLength q r) :=
  getElem_blockOfBytes_eq _ fun k hk => by
    rw [firstByte_length q m h (by omega), show 4 * 15 + k - 56 = 4 + k by omega, lengthByte_add_four]

theorem getElem_fmtSecond_zero {i : Nat} (hi : i < 16) (h : r < 56 ∨ i ≤ 13) : (fmtSecond q r)[i] = 0 :=
  getElem_blockOfBytes_eq hi fun k hk => by
    rw [secondByte_zero q (by omega), byteOf_zero]

theorem getElem_fmtSecond_lo (h : 56 ≤ r) : (fmtSecond q r)[14] = lengthLo (messageLength q r) :=
  getElem_blockOfBytes_eq _ fun k hk => by
    rw [secondByte_length q h (by omega), Nat.add_sub_cancel_left, lengthByte_of_lt _ hk]

theorem getElem_fmtSecond_hi (h : 56 ≤ r) : (fmtSecond q r)[15] = lengthHi (messageLength q r) :=
  getElem_blockOfBytes_eq _ fun k hk => by
    rw [secondByte_length q h (by omega), show 4 * 15 + k - 56 = 4 + k by omega, lengthByte_add_four]

end Words

theorem lengthLo_eq (len : Nat) : lengthLo len = BitVec.ofNat 32 (8 * len) := by
  rw [lengthLo, Nat.mul_comm]
  rfl

/-- Settles O26, kind of word by kind of word. -/
theorem formatterWordByWord : Obligations.FormatterWordByWord := by
  intro q r m _ _
  dsimp only
  rw [← lengthLo_eq]
  exact ⟨fun i h => getElem_fmtFirst_message q m i.isLt h, fun i h => getElem_fmtFirst_marker q m i.isLt h,
    fun i h hl => getElem_fmtFirst_zero q m i.isLt h hl,
    fun h => ⟨getElem_fmtFirst_lo q m (by omega), getElem_fmtFirst_hi q m (by omega),
      fun i => getElem_fmtSecond_zero q i.isLt (.inl (by omega))⟩,
    fun h => ⟨getElem_fmtSecond_lo q h, getElem_fmtSecond_hi q h,
      fun i hz => getElem_fmtSecond_zero q i.isLt (.inr hz)⟩⟩

/-- Settles O29: eight words of the message, the marker in a word of its own, zeros, and the length 256. -/
theorem fastPathBlock : Obligations.FastPathBlock := by
  intro m
  refine ⟨rfl, Vector.ext fun i hi => ?_⟩
  obtain h | rfl | ⟨h, h'⟩ | rfl | rfl : i < 8 ∨ i = 8 ∨ 8 < i ∧ i ≤ 13 ∨ i = 14 ∨ i = 15 := by omega
  · rw [getElem_fmtFirst_message 0 m hi h]
    interval_cases i <;> rfl
  · rw [getElem_fmtFirst_marker 0 m hi rfl]
    simp
  · rw [getElem_fmtFirst_zero 0 m hi h (.inl h')]
    interval_cases i <;> rfl
  · exact getElem_fmtFirst_lo 0 m (by decide)
  · exact getElem_fmtFirst_hi 0 m (by decide)

end Sys2Proof.Machine
end

section
/-!
`pad` as a list of blocks (40_padding.md R58, R61, R65): how many blocks it has, the message blocks, and that the
formatter makes the last of them.
-/

namespace Sys2Proof.Machine

/-! ### The number of blocks -/

theorem zeroCount_spec (len : Nat) : zeroCount len ≤ 63 ∧ (len + 1 + zeroCount len) % 64 = 56 := by
  unfold zeroCount
  omega

theorem length_pad (m : List Byte) : (pad m).length = blockCount m := by
  rw [pad, List.length_map, List.length_range]

/-- The length field ends the block the tail is in, or the one after it (R61). -/
theorem blockCount_eq_ite (m : List Byte) :
    blockCount m = if m.length % 64 ≤ 55 then m.length / 64 + 1 else m.length / 64 + 2 := by
  obtain ⟨hz, hend⟩ := zeroCount_spec m.length
  rw [blockCount_eq]
  split <;> omega

/-- Settles O24, from the closed form of the block count. -/
theorem padBlockCount : Obligations.PadBlockCount := by
  intro m hm
  rw [length_pad, blockCount_eq_ite]
  refine ⟨rfl, ?_, ?_, ?_, ?_⟩ <;> split <;> omega

/-! ### The blocks one by one -/

theorem blockAt_padded_message (m : List Byte) {i : Nat} (h : i < m.length / 64) :
    blockAt (paddedBytes m) i = blockAt m i :=
  block_eq_of_bytes fun k hk => by
    rw [blockByte_blockAt _ _ _ hk, blockByte_blockAt _ _ _ hk, padded_get, if_pos (by omega)]

theorem messageLength_div_mod (len : Nat) : messageLength (len / 64) (len % 64) = len := Nat.div_add_mod len 64

/-- The block the tail is in: tail, marker, zeros, and the length field where it fits. -/
theorem blockAt_padded_first {m : List Byte} {X : Block}
    (hX : ∀ k < m.length % 64, m[64 * (m.length / 64) + k]? = some (blockByte X k)) :
    blockAt (paddedBytes m) (m.length / 64) = fmtFirst (m.length / 64) (m.length % 64) X := by
  obtain ⟨hz, hend⟩ := zeroCount_spec m.length
  refine block_eq_of_bytes fun k hk => ?_
  rw [blockByte_blockAt _ _ _ hk, blockByte_fmtFirst _ _ X hk, padded_get]
  obtain h | h | h := Nat.lt_trichotomy k (m.length % 64)
  · rw [if_pos (by omega), firstByte_message _ X h, List.getD_eq_getElem?_getD, hX k h, Option.getD_some]
  · rw [if_neg (by omega), if_pos (by omega), h, firstByte_marker]
  · rw [if_neg (by omega), if_neg (by omega)]
    by_cases hzero : k < 56 ∨ 56 ≤ m.length % 64
    · rw [if_pos (by omega), firstByte_zero _ X h hzero]
    · rw [if_neg (by omega), if_pos (by omega), firstByte_length _ X (by omega) (by omega), messageLength_div_mod]
      congr 1
      omega

/-- The block after it, when the length field does not fit: zeros and the length field. -/
theorem blockAt_padded_second {m : List Byte} (h : 56 ≤ m.length % 64) :
    blockAt (paddedBytes m) (m.length / 64 + 1) = fmtSecond (m.length / 64) (m.length % 64) := by
  obtain ⟨hz, hend⟩ := zeroCount_spec m.length
  refine block_eq_of_bytes fun k hk => ?_
  rw [blockByte_blockAt _ _ _ hk, blockByte_fmtSecond _ _ hk, padded_get, if_neg (by omega), if_neg (by omega)]
  by_cases hzero : k < 56
  · rw [if_pos (by omega), secondByte_zero _ (.inr hzero)]
  · rw [if_neg (by omega), if_pos (by omega), secondByte_length _ h (by omega), messageLength_div_mod]
    congr 1
    omega

theorem map_blockAt_padded_message (m : List Byte) :
    (List.range (m.length / 64)).map (blockAt (paddedBytes m)) = (List.range (m.length / 64)).map (blockAt m) :=
  List.map_congr_left fun _ hi => blockAt_padded_message m (List.mem_range.1 hi)

/-- `pad` is the message blocks and then the formatter's trailer blocks (R65). -/
theorem pad_eq_message_append_trailer {m : List Byte} {X : Block}
    (hX : ∀ k < m.length % 64, m[64 * (m.length / 64) + k]? = some (blockByte X k)) :
    pad m = (List.range (m.length / 64)).map (blockAt m) ++
      if m.length % 64 ≤ 55 then [fmtFirst (m.length / 64) (m.length % 64) X]
      else [fmtFirst (m.length / 64) (m.length % 64) X, fmtSecond (m.length / 64) (m.length % 64)] := by
  rw [pad, blockCount_eq_ite]
  split
  · rw [List.range_succ, List.map_append, map_blockAt_padded_message, List.map_singleton, blockAt_padded_first hX]
  · rw [List.range_succ, List.map_append, List.range_succ, List.map_append, map_blockAt_padded_message,
      List.map_singleton, List.map_singleton, blockAt_padded_first hX, blockAt_padded_second (by omega),
      List.append_assoc]
    rfl

/-- Settles O30: compressing `pad` is compressing its two parts one after the other. -/
theorem formatterAgreesWithPad : Obligations.FormatterAgreesWithPad := by
  intro m X _ hX
  have hpad := pad_eq_message_append_trailer hX
  exact ⟨hpad, by rw [hash, hpad, compressAll, List.foldl_append]; rfl⟩

/-! ### The padded bytes -/

/-- Two different numbers of zeros below 64 do not both reach 56 mod 64. -/
theorem zeroCount_least {len z : Nat} (h : z < zeroCount len) : (len + 1 + z) % 64 ≠ 56 := by
  have := zeroCount_spec len
  omega

theorem messageLength_zero (r : Nat) : messageLength 0 r = r := by
  rw [messageLength, Nat.mul_zero, Nat.zero_add]

/-- A message of at most 55 bytes is its own tail. -/
theorem pad_of_short {m : List Byte} (h : m.length ≤ 55) : pad m = [fmtFirst 0 m.length (blockAt m 0)] := by
  have hq : m.length / 64 = 0 := by omega
  have hr : m.length % 64 = m.length := by omega
  have hpad := pad_eq_message_append_trailer (m := m) (X := blockAt m 0) fun k hk => by
    rw [hq, blockByte_blockAt _ _ _ (by omega), List.getD_eq_getElem?_getD, List.getElem?_eq_getElem (by omega),
      Option.getD_some]
  rwa [hq, hr, if_pos h] at hpad

/-- Settles O25: the shape is `paddedBytes` with `zeroCount` as its `z`, the block of a short message the formatter's. -/
theorem padShape : Obligations.PadShape := by
  intro m hm
  obtain ⟨hz, hmod⟩ := zeroCount_spec m.length
  refine ⟨zeroCount m.length, hz, hmod, fun _ => zeroCount_least, ?_, fun hshort =>
    ⟨_, pad_of_short hshort, ?_, ?_, ?_⟩⟩
  · rw [← div_two_pow_29_eq, ← lengthLo_eq, paddedBytes, List.append_cons]
    rfl
  · rw [getElem_fmtFirst_lo 0 _ (by omega), messageLength_zero, lengthLo_toNat]
  · rw [getElem_fmtFirst_hi 0 _ (by omega), messageLength_zero, lengthHi_toNat (by omega), div_two_pow_29_eq]
  · rw [blockByte_fmtFirst _ _ _ (by omega), firstByte_marker]

end Sys2Proof.Machine
end

section
/-!
The command FORMAT (40_padding.md R67), its issue and its completion.
-/

namespace Sys2Proof.Machine

/-- Settles O13, from the equations of `exec` in either turn and, for the word, from O1. -/
theorem formatWritesTrailerBlocks : Obligations.FormatWritesTrailerBlocks := by
  intro r s hr
  refine ⟨?_, fun ht hb => ?_, fun ht hb hd => ?_, fun ht hb hd => ?_, fun ht => ?_⟩
  · have word : encode (.format r) = BitVec.ofNat 32 (0x00000004 + r * 2 ^ 8) := by
      rw [encode, Nat.mul_comm]
      rfl
    rw [← word]
    exact decodeOfEncode (.format r) (decide_eq_true hr)
  · rw [exec_host ht, unlessBusy_of_busy hb]
    rfl
  · rw [exec_host ht, unlessBusy_of_idle hb]
    exact unlessDone_of_done hd _
  · rw [exec_host ht, unlessBusy_of_idle hb]
    exact ⟨_, _, unlessDone_of_open hd _⟩
  · rw [exec_core ht, completed, State.formatTail, State.finish]
    rfl

end Sys2Proof.Machine
end

section
/-!
The compression core (41_compression.md): the boolean functions bit by bit, the schedule of the 80 steps, the two lines
and their combine, and the command RAWCOMP.
-/

namespace Sys2Proof.Machine

/-! ### The boolean functions bit by bit (R68) -/

theorem getLsbD_boolF (x y z : Word) (i : Nat) :
    (boolF x y z).getLsbD i = ((x.getLsbD i ^^ y.getLsbD i) ^^ z.getLsbD i) := by
  simp only [boolF, BitVec.getLsbD_xor]

theorem getLsbD_boolG (x y z : Word) {i : Nat} (hi : i < 32) :
    (boolG x y z).getLsbD i = (x.getLsbD i && y.getLsbD i || !x.getLsbD i && z.getLsbD i) := by
  simp only [boolG, BitVec.getLsbD_or, BitVec.getLsbD_and, BitVec.getLsbD_not, hi, decide_true, Bool.true_and]

theorem getLsbD_boolH (x y z : Word) {i : Nat} (hi : i < 32) :
    (boolH x y z).getLsbD i = ((x.getLsbD i || !y.getLsbD i) ^^ z.getLsbD i) := by
  simp only [boolH, BitVec.getLsbD_xor, BitVec.getLsbD_or, BitVec.getLsbD_not, hi, decide_true, Bool.true_and]

theorem getLsbD_boolI (x y z : Word) {i : Nat} (hi : i < 32) :
    (boolI x y z).getLsbD i = (x.getLsbD i && z.getLsbD i || y.getLsbD i && !z.getLsbD i) := by
  simp only [boolI, BitVec.getLsbD_or, BitVec.getLsbD_and, BitVec.getLsbD_not, hi, decide_true, Bool.true_and]

theorem getLsbD_boolJ (x y z : Word) {i : Nat} (hi : i < 32) :
    (boolJ x y z).getLsbD i = (x.getLsbD i ^^ (y.getLsbD i || !z.getLsbD i)) := by
  simp only [boolJ, BitVec.getLsbD_xor, BitVec.getLsbD_or, BitVec.getLsbD_not, hi, decide_true, Bool.true_and]

/-- The five formulas on single bits have the five truth tables, by the eight rows. -/
theorem truthTables_of_formulas : ∀ a b c : Bool,
    truthF[truthRow a b c]? = some ((a ^^ b) ^^ c) ∧
    truthG[truthRow a b c]? = some (a && b || !a && c) ∧
    truthH[truthRow a b c]? = some ((a || !b) ^^ c) ∧
    truthI[truthRow a b c]? = some (a && c || b && !c) ∧
    truthJ[truthRow a b c]? = some (a ^^ (b || !c)) := by
  decide

/-- Settles O18: a bit of each function is its formula on the bits of the words. -/
theorem booleanFunctionsBitwise : Obligations.BooleanFunctionsBitwise := by
  intro x y z i hi
  rw [getLsbD_boolF, getLsbD_boolG x y z hi, getLsbD_boolH x y z hi, getLsbD_boolI x y z hi, getLsbD_boolJ x y z hi]
  exact truthTables_of_formulas _ _ _

/-! ### The two lines and the combine (R77, R78) -/

/-- The working registers after the 80 steps: each line has run on its own. -/
theorem runLines_eq (h : Chain) (m : Block) :
    runLines h m =
      { h := h, left := (List.range 80).foldl (fun l j => leftStep m j l) (Line.ofChain h),
        right := (List.range 80).foldl (fun l j => rightStep m j l) (Line.ofChain h), j := 80 } := by
  rw [runLines, Work.steps_eq, List.range_eq_range']
  rfl

/-- Settles O21: the steps of the two lines are R76's, and the combine reads the two results alone. -/
theorem compressIsTwoLinesCombined : Obligations.CompressIsTwoLinesCombined := by
  intro h m start left right
  have run : runLines h m = { h := h, left := left, right := right, j := 80 } := runLines_eq h m
  refine ⟨run, ?_⟩
  rw [compress, run, Work.combine]

/-! ### RAWCOMP (R82) -/

/-- Settles O14, from the equations of `exec` in either turn and, for the word, from O1. -/
theorem rawcompCompresses : Obligations.RawcompCompresses := by
  refine ⟨decodeOfEncode .rawcomp rfl, fun s => ⟨fun ht hb => ?_, fun ht hb => ?_, fun ht => ?_⟩⟩
  · rw [exec_host ht, unlessBusy_of_busy hb]
    rfl
  · rw [exec_host ht, unlessBusy_of_idle hb]
    exact ⟨_, _, rfl⟩
  · rw [exec_core ht]
    exact ⟨_, rfl⟩

/-! ### The schedule (R69 to R74) -/

/-- The rounds are the five runs of 16 steps. -/
theorem roundOf_eq_ite {j : Nat} (hj : j < 80) :
    roundOf j = if j < 16 then 1 else if j < 32 then 2 else if j < 48 then 3 else if j < 64 then 4 else 5 := by
  rw [roundOf]
  split_ifs <;> omega

/-- Settles O19, round by round. -/
theorem roundFunctionsAndConstants : Obligations.RoundFunctionsAndConstants := by
  intro j hj
  rw [roundOf_eq_ite hj]
  split_ifs <;> exact ⟨rfl, rfl⟩

/-- Settles O20, by reading the four tables. -/
theorem scheduleTablesWellFormed : Obligations.ScheduleTablesWellFormed :=
  ⟨by decide, by decide⟩

end Sys2Proof.Machine
end

section
/-!
The chunk driver's commands (42_driver.md R84 to R89): the checks at issue as one chain, and what each completion
writes.
-/

namespace Sys2Proof.Machine

/-! ### Issue (R84) -/

theorem exec_of_busy {s : State} (ht : s.turn = .host) (hb : s.status.busy = true) (i : Instr) :
    exec i s = .next (s.cmdError .busy) := by
  rw [exec_host ht, unlessBusy_of_busy hb]

/-- The checks after BUSY, in the order R84 writes them, the same chain for every command. -/
theorem exec_of_idle {s : State} (ht : s.turn = .host) (hb : s.status.busy = false) (i : Instr) :
    exec i s =
      if i = .nop then .next s
      else if (i.opcode = 0x2 ∨ i.opcode = 0x3 ∨ i.opcode = 0x4) ∧ s.status.done = true then
        .next (s.cmdError .sequence)
      else if i = .compress ∧ s.blkcnt.toNat = maxMessageBlocks then .next (s.cmdError .inputTooLarge)
      else .next (s.accept i) := by
  rw [exec_host ht, unlessBusy_of_idle hb]
  cases i <;> simp [unlessDone, unlessFull, Instr.opcode]

/-- While BUSY a word written to CMD is rejected before its decoding shows. -/
theorem step_of_command_busy {s : State} {w : Word} (he : s.hostDoes (.write 0x00 4 w))
    (hb : s.status.busy = true) : step s = .next ((s.taken .ok).cmdError .busy).handOver := by
  cases hd : decode w with
  | command i => rw [stepRunsDecodedCommand s w i he hd, exec_of_busy (s := s.taken .ok) rfl hb]; rfl
  | illegal why => rw [step_of_command he, writeCmd, hd, unlessBusy_of_busy (s := s.taken .ok) hb]; rfl

/-- Settles O8: BUSY comes before the decoding, and `exec_of_idle` is the chain of the checks after it. -/
theorem issueChecksInOrder : Obligations.IssueChecksInOrder := by
  intro s w he
  cases hb : s.status.busy with
  | true => exact stepsTo_of_handOver (step_of_command_busy he hb)
  | false =>
    cases hd : decode w with
    | illegal why => exact (illegalWordIsRejected w).2 s he hb ⟨why, hd⟩
    | command i =>
      have step_eq := stepRunsDecodedCommand s w i he hd
      rw [exec_of_idle (s := s.taken .ok) rfl hb, State.taken_status, State.taken_blkcnt, maxMessageBlocks] at step_eq
      simp only [Bool.false_eq_true, if_false]
      split_ifs at step_eq ⊢ <;> exact ⟨_, _, _, step_eq⟩

/-! ### Completion (R85) -/

/-- Settles O7. -/
theorem stepRunsPendingCommand : Obligations.StepRunsPendingCommand :=
  fun _ _ => step_of_coreRuns

/-! ### NOP (R86) -/

/-- The only command with OP = 0 is NOP, and the only word of NOP is 0. -/
theorem decode_illegal_of_op_zero {w : Word} (hop : opField w = 0) (hw : w ≠ 0) :
    ∃ why, decode w = .illegal why := by
  cases hd : decode w with
  | illegal why => exact ⟨why, rfl⟩
  | command i =>
    obtain ⟨-, -, opcode, tail⟩ := decode_eq_command_iff.1 hd
    obtain ⟨-, rfl⟩ : tailField w = 0 ∧ i = .nop := by simpa [hop] using Instr.opcode_tail_iff.1 ⟨opcode, tail⟩
    exact absurd (encodeOfDecode w .nop hd).2.symm hw

/-- Settles O9. -/
theorem nopDoesNothing : Obligations.NopDoesNothing := by
  refine ⟨decodeOfEncode .nop rfl, fun w => decode_illegal_of_op_zero, fun w s hop hw hb => ?_,
    fun s ht => ⟨fun hb => exec_of_idle ht hb .nop, fun hb => exec_of_busy ht hb .nop⟩⟩
  obtain ⟨why, hd⟩ := decode_illegal_of_op_zero hop hw
  exact writeCmd_of_illegal hd hb

/-! ### INIT (R87) -/

/-- Settles O10: no check but BUSY stops INIT. -/
theorem initLoadsIv : Obligations.InitLoadsIv := by
  refine ⟨decodeOfEncode .init rfl, fun s => ⟨fun ht hb => exec_of_busy ht hb .init, fun ht hb => ?_, fun ht => ?_⟩⟩
  · rw [exec_host ht, unlessBusy_of_idle hb]
    exact ⟨_, _, rfl⟩
  · exact exec_core ht

/-! ### COMPRESS (R88) -/

/-- Settles O11, from the equations of `exec` in either turn and, for the word, from O1. -/
theorem compressAbsorbsBlock : Obligations.CompressAbsorbsBlock := by
  refine ⟨decodeOfEncode .compress rfl, fun s => ⟨fun ht hb => exec_of_busy ht hb .compress, fun ht hb hd => ?_,
    fun ht hb hd hfull => ?_, fun ht hb hd hroom => ?_, fun ht => ⟨_, exec_core ht⟩⟩⟩
  · rw [exec_host ht, unlessBusy_of_idle hb]
    exact unlessDone_of_done hd _
  · rw [exec_host ht, unlessBusy_of_idle hb]
    exact (unlessDone_of_open hd _).trans (unlessFull_of_full hfull _)
  · rw [exec_host ht, unlessBusy_of_idle hb]
    exact ⟨_, _, (unlessDone_of_open hd _).trans (unlessFull_of_room hroom _)⟩

/-! ### FINAL (R89) -/

/-- Settles O12: the completion is the one of `completed`, PAD2 saying how many trailer blocks there are. -/
theorem finalPadsAndCompresses : Obligations.FinalPadsAndCompresses := by
  intro r s hr
  refine ⟨?_, fun ht hb => exec_of_busy ht hb _, fun ht hb hd => ?_, fun ht hb hd => ?_, fun ht h => ?_, fun ht h => ?_⟩
  · have word : encode (.final r) = BitVec.ofNat 32 (0x00000003 + r * 2 ^ 8) := by
      rw [encode, Nat.mul_comm]
      rfl
    rw [← word]
    exact decodeOfEncode (.final r) (decide_eq_true hr)
  · rw [exec_host ht, unlessBusy_of_idle hb]
    exact unlessDone_of_done hd _
  · rw [exec_host ht, unlessBusy_of_idle hb]
    exact ⟨_, _, unlessDone_of_open hd _⟩
  · have one : tailNeedsTwo r = false := (tailNeedsTwo_eq_false r).2 (Nat.lt_succ_of_le h)
    rw [exec_core ht, completed, State.formatTail, one]
    exact ⟨_, rfl⟩
  · have two : tailNeedsTwo r = true := (tailNeedsTwo_eq_true r).2 h
    rw [exec_core ht, completed, State.formatTail, two]
    exact ⟨_, rfl⟩

end Sys2Proof.Machine
end

section
/-!
The driver's commands on a message (42_driver.md R90, R91): COMPRESS takes the state of the first blocks one block
further, and FINAL takes the state of all full blocks to the hash.
-/

namespace Sys2Proof.Machine

theorem compressAll_range_succ (h : Chain) (block : Nat → Block) (q : Nat) :
    compressAll h ((List.range (q + 1)).map block) = compress (compressAll h ((List.range q).map block)) (block q) := by
  rw [compressAll, List.range_succ, List.map_append, List.foldl_append]
  rfl

/-- Settles O31: the completion of COMPRESS is the next step of the fold, and BLKCNT does not wrap. -/
theorem compressExtendsAbsorbedMessage : Obligations.CompressExtendsAbsorbedMessage := by
  intro m q s ht hblock hlen hh hq hx
  obtain ⟨-, -, -, -, completion⟩ := compressAbsorbsBlock.2 s
  obtain ⟨work, hexec⟩ := completion ht
  refine ⟨_, hexec, ?_, ?_⟩
  · rw [compressAll_range_succ, ← hh, ← hx]
  · have noWrap : s.blkcnt.toNat + 1 < 2 ^ 32 := by omega
    exact (BitVec.toNat_add_of_lt (y := 1) noWrap).trans (by rw [hq]; rfl)

/-- Settles O32: FINAL's completion (O12) compresses the trailer blocks that end `pad` (O30), whose number it adds to
BLKCNT (O24). -/
theorem finalYieldsHash : Obligations.FinalYieldsHash := by
  intro m s ht hlen hh hq hx
  have noWrap : s.blkcnt.toNat + 2 < 2 ^ 32 := by omega
  obtain ⟨-, hash_eq⟩ := formatterAgreesWithPad m s.x hlen hx
  obtain ⟨pad_length, -⟩ := padBlockCount m hlen
  obtain ⟨-, -, -, -, one, two⟩ := finalPadsAndCompresses (m.length % 64) s (by omega)
  rw [hash_eq, pad_length, ← hh, ← hq]
  by_cases hr : m.length % 64 ≤ 55
  · obtain ⟨work, hexec⟩ := one ht hr
    rw [if_pos hr, if_pos hr]
    exact ⟨_, hexec, rfl, BitVec.toNat_add_of_lt (y := 1) (Nat.lt_of_succ_lt noWrap), rfl, rfl, rfl⟩
  · obtain ⟨work, hexec⟩ := two ht (by omega)
    rw [if_neg hr, if_neg hr]
    exact ⟨_, hexec, rfl, BitVec.toNat_add_of_lt (y := 2) noWrap, rfl, rfl, rfl⟩

end Sys2Proof.Machine
end

section
/-!
A pending command (42_driver.md R85, 70_reset_and_hazards.md R127): what it reads is kept by every host step but a
reset, and each such step brings its completion nearer.
-/

namespace Sys2Proof.Machine

/-! ### What a pending command reads stays (R85) -/

/-- In `t` the command pending in `s` is still pending, with every register it reads as in `s`. -/
structure SamePending (s t : State) : Prop where
  h : t.h = s.h
  x : t.x = s.x
  y : t.y = s.y
  blkcnt : t.blkcnt = s.blkcnt
  done : t.status.done = s.status.done
  pad2 : t.status.pad2 = s.status.pad2
  busy : t.status.busy = s.status.busy
  pend : t.pend = s.pend

theorem SamePending.refl (s : State) : SamePending s s := ⟨rfl, rfl, rfl, rfl, rfl, rfl, rfl, rfl⟩

theorem SamePending.trans {s t u : State} (hst : SamePending s t) (htu : SamePending t u) : SamePending s u :=
  ⟨htu.h.trans hst.h, htu.x.trans hst.x, htu.y.trans hst.y, htu.blkcnt.trans hst.blkcnt, htu.done.trans hst.done,
    htu.pad2.trans hst.pad2, htu.busy.trans hst.busy, htu.pend.trans hst.pend⟩

/-- No window is written and no command accepted while BUSY. -/
theorem samePending_of_host_step {s t : State} (ht : s.turn = .host) (hb : s.status.busy = true)
    (hreset : ¬ s.hostDoes .reset) (h : step s = .next t) : SamePending s t := by
  have notCore : ¬ ∃ i, s.coreRuns i := fun ⟨i, hi⟩ => not_coreRuns (.inl ht) i hi
  have notWritten : ∀ r, ¬ s.writesRegion r := by
    rintro r ⟨off, n, v, -, -, hidle⟩
    rw [hb] at hidle
    cases hidle
  have frame := ((step_completes_resets_or_frame h).resolve_left notCore).resolve_left hreset
  obtain ⟨who, -, -⟩ | ⟨w, i, -, -, -, hidle, -, -⟩ | ⟨hbusy, hpend⟩ := step_busy_pend h
  · exact (who.elim notCore hreset).elim
  · rw [hb] at hidle
    cases hidle
  · exact ⟨frame.h.resolve_right (notWritten _), frame.x.resolve_right (notWritten _), frame.y, frame.blkcnt,
      frame.done, frame.pad2, hbusy, hpend⟩

/-- Settles O54. -/
theorem pendingInputsProtected : Obligations.PendingInputsProtected := by
  intro s t ht hb hreset h
  obtain ⟨hh, hx, hy, hblkcnt, hdone, hpad2, hbusy, hpend⟩ := samePending_of_host_step ht hb hreset h
  exact ⟨hh, hx, hy, hblkcnt, hdone, hpad2, hbusy.trans hb, hpend⟩

/-! ### Every step answers (60_exceptions.md R99) -/

theorem afterMove_answers {o : Result} (h : ∃ u, o = .next u) : ∃ t, afterMove o = .next t := by
  obtain ⟨u, rfl⟩ := h
  exact ⟨_, rfl⟩

theorem memRead_answers {s : State} (hcode : s.status.reserved = false) (off : BitVec 8) (n : Nat) :
    ∃ t, memRead off n s = .next t := by
  unfold memRead
  split_ifs
  · exact ⟨_, readStatus_answers hcode⟩
  · exact ⟨_, rfl⟩
  · exact ⟨_, rfl⟩
  · exact ⟨_, rfl⟩

theorem writeWindow_answers (off n : Nat) (v : Word) (s : State) : ∃ t, writeWindow off n v s = .next t := by
  unfold writeWindow
  split_ifs
  · exact ⟨_, rfl⟩
  · exact ⟨_, rfl⟩

/-- A write answers, also one that issues a command. -/
theorem step_of_write_answers {s : State} {off : BitVec 8} {n : Nat} {v : Word} (he : s.hostDoes (.write off n v)) :
    ∃ t, step s = .next t := by
  rw [step_of_write he]
  obtain ⟨-, hm⟩ | ⟨-, -, hm⟩ | ⟨-, -, hm⟩ | ⟨-, -, hm⟩ := memWrite_cases off n v s.hostActs <;> rw [hm]
  · exact ⟨_, rfl⟩
  · cases hd : decode v with
    | command i =>
      rw [writeCmd_of_decode hd]
      exact afterMove_answers (exec_answers i _)
    | illegal why =>
      rw [writeCmd, hd]
      exact afterMove_answers (unlessBusy_answers ⟨_, rfl⟩)
  · exact ⟨_, rfl⟩
  · exact afterMove_answers (writeWindow_answers _ _ _ _)

/-- From a state whose ERRCODE exists every step answers. -/
theorem step_answers {s : State} (hcode : s.status.errCode.toNat ≤ 4) : ∃ t, step s = .next t := by
  have notReserved : s.status.reserved = false := decide_eq_false (by omega)
  obtain ⟨i, hi⟩ | ⟨e, he⟩ | ⟨hturn, hin⟩ := step_kinds s
  · rw [step_of_coreRuns hi]
    exact afterMove_answers (exec_answers i s)
  · cases e with
    | read off n =>
      rw [step_of_read he]
      exact afterMove_answers (memRead_answers (s := s.hostActs) notReserved off n)
    | write off n v => exact step_of_write_answers he
    | wait =>
      rw [step_of_wait he]
      exact afterMove_answers ⟨_, readStatus_answers notReserved⟩
    | reset => exact ⟨_, step_of_reset he⟩
  · exact ⟨_, step_of_idle hturn hin⟩

/-! ### The latency runs out (R85, R127) -/

/-- A host step with a command pending leaves its latency to `State.handOver` to count down, and gives the host no new
event to do. -/
theorem host_step_while_busy {s t : State} (ht : s.turn = .host) (hb : s.status.busy = true)
    (hreset : ¬ s.hostDoes .reset) (h : step s = .next t) :
    ∃ u : State, t = u.handOver ∧ u.pend = s.pend ∧ u.delay = s.delay ∧ ∀ e ∈ u.inbox, e ∈ s.inbox := by
  obtain ⟨i, hi, -⟩ | ⟨hr, -⟩ | ⟨u, ⟨-, -, -, -, -, hpend⟩, -, hdelay, -, -, hinbox, rfl⟩ | ⟨off, n, v, c, -, rfl⟩ |
    ⟨w, i, -, -, hidle, -, -, -, rfl⟩ | ⟨v, -, rfl⟩ | ⟨off, n, v, -, -, hidle, -, rfl⟩ := step_cases h
  · exact absurd hi (not_coreRuns (.inl ht) i)
  · exact absurd hr hreset
  · exact ⟨u, rfl, hpend, hdelay, hinbox⟩
  · exact ⟨_, rfl, rfl, rfl, fun _ => List.mem_of_mem_tail⟩
  · rw [hb] at hidle
    cases hidle
  · exact ⟨_, rfl, rfl, rfl, fun _ => List.mem_of_mem_tail⟩
  · rw [hb] at hidle
    cases hidle

/-- One host step nearer to the completion: the core has the turn, or the latency is one less. -/
theorem host_step_approaches_completion {s : State} (hs : s.Inv) (hb : s.status.busy = true) (ht : s.turn = .host)
    (hreset : .reset ∉ s.inbox) :
    ∃ t, step s = .next t ∧ t.Inv ∧ SamePending s t ∧ .reset ∉ t.inbox ∧ (t.turn = .core ∨ t.delay + 1 = s.delay) := by
  have notReset : ¬ s.hostDoes .reset := fun he => hreset (List.mem_of_head? he.2)
  obtain ⟨t, hstep⟩ := step_answers hs.code_le
  refine ⟨t, hstep, stepKeepsLegal s t hs hstep, samePending_of_host_step ht hb notReset hstep, ?_⟩
  obtain ⟨u, rfl, hpend, hdelay, hinbox⟩ := host_step_while_busy ht hb notReset hstep
  refine ⟨fun he => hreset (hinbox _ he), ?_⟩
  have pending : u.pend ≠ none := by
    rw [hpend, ← Option.isSome_iff_ne_none, ← hs.busy_iff, hb]
  by_cases due : u.delay = 0
  · exact .inl (by rw [handOver_due pending due])
  · refine .inr ?_
    rw [handOver_waiting pending due, ← hdelay]
    exact Nat.succ_pred_eq_of_pos (Nat.pos_of_ne_zero due)

theorem run_succ_of_step {M : Host.Core} {s t : M.State} (h : M.step s = .next t) (k : Nat) :
    M.run (k + 1) s = M.run k t := by
  rw [Host.Core.run, h]

/-- `run` takes its first step first; one more step at the end is one step from where it got to. -/
theorem run_succ_of_run {M : Host.Core} {s u : M.State} {k : Nat} (h : M.run k s = .next u) :
    M.run (k + 1) s = M.step u := by
  induction k generalizing s with
  | zero =>
    obtain rfl : s = u := by cases h; rfl
    rw [Host.Core.run]
    cases M.step s <;> rfl
  | succ k ih =>
    cases hstep : M.step s with
    | next t => rw [run_succ_of_step hstep] at h ⊢; exact ih h
    | fault r => rw [Host.Core.run, hstep] at h; cases h
    | refused r => rw [Host.Core.run, hstep] at h; cases h

/-- The core gets the turn within `delay + 1` steps, by induction on the latency. -/
theorem core_turn_reached {s : State} (hs : s.Inv) (hb : s.status.busy = true) (hreset : .reset ∉ s.inbox) :
    ∃ k u, k ≤ s.delay + 1 ∧ core.run k s = .next u ∧ u.turn = .core ∧ SamePending s u := by
  cases ht : s.turn with
  | core => exact ⟨0, s, Nat.zero_le _, rfl, ht, .refl s⟩
  | host =>
    obtain ⟨t, hstep, hinv, hsame, hreset', progress⟩ := host_step_approaches_completion hs hb ht hreset
    rcases progress with hcore | hdelay
    · exact ⟨1, t, by omega, run_succ_of_step (M := core) hstep 0, hcore, hsame⟩
    · obtain ⟨k, u, hk, hrun, hcore, hsame'⟩ := core_turn_reached hinv (hsame.busy.trans hb) hreset'
      exact ⟨k + 1, u, by omega, (run_succ_of_step (M := core) hstep k).trans hrun, hcore, hsame.trans hsame'⟩
termination_by s.delay

/-- Settles O58: `core_turn_reached`, and the step after it is the completion. -/
theorem pendingCommandCompletes : Obligations.PendingCommandCompletes := by
  intro s i hs hp hreset
  have hb : s.status.busy = true := by rw [hs.busy_iff, hp]; rfl
  obtain ⟨k, u, hk, hrun, hcore, hh, hx, hy, hblkcnt, hdone, hpad2, -, hpend⟩ := core_turn_reached hs hb hreset
  have pending : u.pend = some i := hpend.trans hp
  refine ⟨k, u, (completed i u).finish.handOver, hk, hrun, hcore, pending, hh, hx, hy, hblkcnt, hdone, hpad2, ?_, rfl,
    rfl⟩
  rw [run_succ_of_run hrun]
  show step u = _
  rw [stepRunsPendingCommand u i ⟨hcore, pending⟩, exec_core hcore]
  rfl

end Sys2Proof.Machine
end

section
/-!
The little-endian codec (43_codec.md R94, R95): the bytes of a list of words, and the two functions as inverses on
whole words, so that every list of `4n` bytes is the bytes of `n` words. The digest is the bytes of `H` (R97).
-/

namespace Sys2Proof.Machine

/-! ### The bytes of words -/

theorem length_wordsToBytes (ws : List Word) : (wordsToBytes ws).length = 4 * ws.length := by
  induction ws with
  | nil => rfl
  | cons w ws ih =>
    simp only [wordsToBytes_cons, List.length_cons, ih]
    omega

theorem getElem?_wordsToBytes {ws : List Word} {i k : Nat} {w : Word} (hk : k < 4) (hw : ws[i]? = some w) :
    (wordsToBytes ws)[4 * i + k]? = some (byteOf w k) := by
  induction ws generalizing i with
  | nil => cases hw
  | cons v ws ih =>
    cases i with
    | zero =>
      obtain rfl : v = w := Option.some.inj hw
      interval_cases k <;> rfl
    | succ i =>
      rw [Nat.mul_succ, Nat.add_right_comm]
      exact ih hw

/-- A word as the number its bytes make (R34). -/
theorem word_toNat_eq_bytes (w : Word) :
    w.toNat = (byteOf w 0).toNat + 2 ^ 8 * (byteOf w 1).toNat + 2 ^ 16 * (byteOf w 2).toNat +
      2 ^ 24 * (byteOf w 3).toNat := by
  rw [← le32_toNat, le32_bytes]

/-! ### The two functions as inverses -/

@[simp] theorem bytesToWords_wordsToBytes (ws : List Word) : bytesToWords (wordsToBytes ws) = ws := by
  induction ws with
  | nil => rfl
  | cons w ws ih => rw [wordsToBytes_cons, bytesToWords_cons, le32_bytes, ih]

/-- Along the recursion of `bytesToWords`: only a list of 1, 2 or 3 bytes has a rest to drop. -/
theorem wordsToBytes_bytesToWords {b : List Byte} (whole : 4 ∣ b.length) : wordsToBytes (bytesToWords b) = b := by
  induction b using bytesToWords.induct with
  | case1 b0 b1 b2 b3 rest ih =>
    have restWhole : 4 ∣ rest.length := (Nat.dvd_add_left (dvd_refl 4)).1 whole
    simp [ih restWhole]
  | case2 b short =>
    match b with
    | [] => rfl
    | [_] | [_, _] | [_, _, _] => revert whole; simp
    | b0 :: b1 :: b2 :: b3 :: rest => exact absurd rfl (short b0 b1 b2 b3 rest)

theorem exists_words_of_bytes {b : List Byte} {n : Nat} (h : b.length = 4 * n) :
    ∃ ws : List Word, ws.length = n ∧ b = wordsToBytes ws := by
  have bytes := wordsToBytes_bytesToWords ⟨n, h⟩
  have count := length_wordsToBytes (bytesToWords b)
  rw [bytes] at count
  exact ⟨bytesToWords b, by omega, bytes.symm⟩

/-- Settles O33: the bytes are those of `n` words, and a word is the number its bytes make. -/
theorem bytesToWords_wordByWord : Obligations.BytesToWords := by
  intro b n h
  obtain ⟨ws, rfl, rfl⟩ := exists_words_of_bytes h
  rw [bytesToWords_wordsToBytes]
  refine ⟨rfl, fun i hi => ?_⟩
  have word : ws[i]? = some ws[i] := List.getElem?_eq_getElem hi
  have byte : ∀ k < 4, (wordsToBytes ws)[4 * i + k]? = some (byteOf ws[i] k) := fun k hk =>
    getElem?_wordsToBytes hk word
  refine ⟨_, _, _, _, byte 0 (by decide), byte 1 (by decide), byte 2 (by decide), byte 3 (by decide), ?_⟩
  rw [word, Option.map_some, ← word_toNat_eq_bytes]

/-- Settles O34. -/
theorem codecInverse : Obligations.CodecInverse :=
  ⟨fun _ _ _ _ hk hw => getElem?_wordsToBytes hk hw,
    fun ws => ⟨length_wordsToBytes ws, bytesToWords_wordsToBytes ws⟩,
    fun _ n h => wordsToBytes_bytesToWords ⟨n, h⟩⟩

/-! ### The digest -/

theorem length_digestOf (h : Chain) : (digestOf h).length = 20 := by
  rw [digestOf, length_wordsToBytes, Vector.length_toList]

theorem getElem?_digestOf (h : Chain) (i : Fin 5) {k : Nat} (hk : k < 4) :
    (digestOf h)[4 * i.val + k]? = some (byteOf h[i] k) :=
  getElem?_wordsToBytes hk (by simp)

/-- Byte `j` of the digest is the byte of the window `j` after the start of `H`. -/
theorem getElem?_digestOf_window (s : State) {j : Nat} (hj : j < 20) :
    (digestOf s.h)[j]? = some (getByte s (0x10 + j)) := by
  have lane : j % 4 < 4 := Nat.mod_lt j (by decide)
  have digest := getElem?_digestOf s.h ⟨j / 4, by omega⟩ lane
  rw [← getByte_h s ⟨j / 4, by omega⟩ lane, Nat.add_assoc, Nat.div_add_mod] at digest
  exact digest

/-- Settles O35, byte by byte of the window. -/
theorem digestIsHWindow : Obligations.DigestIsHWindow := by
  refine fun s => ⟨List.ext_getElem? fun j => ?_, fun i k hk => getElem?_digestOf s.h i hk⟩
  by_cases hj : j < 20
  · rw [getElem?_digestOf_window s hj, List.getElem?_map, List.getElem?_range hj, Option.map_some]
  · rw [List.getElem?_eq_none (by rw [length_digestOf]; omega), List.getElem?_eq_none (by simpa using hj)]

end Sys2Proof.Machine
end

section
/-!
The exceptions (60_exceptions.md): a bus error records nothing (R100), a rejection sets ERR and a code of 1..4 (R101,
R102), and a command in the host's turn that no check of 42_driver.md R84 stops is accepted.
-/

namespace Sys2Proof.Machine

/-! ### Bus errors (R100) -/

theorem memRead_of_refused {off : BitVec 8} {n : Nat} (ha : ¬ allowed off.toNat n .read = true) (s : State) :
    memRead off n s = .next (s.answer (.busError off)) := if_neg ha

theorem memWrite_of_refused {off : BitVec 8} {n : Nat} (ha : ¬ allowed off.toNat n .write = true) (v : Word)
    (s : State) : memWrite off n v s = .done (.next (s.answer (.busError off))) := if_neg ha

/-- Settles O38: in each of the causes R100 lists the access is none of the allowed ones of O37. -/
theorem busErrorChangesNothing : Obligations.BusErrorChangesNothing := by
  intro s off n v reserved badShape readOnly
  obtain ⟨readAllowed, writeAllowed⟩ := allowedAccesses off n
  have at0 : off = 0x00 ↔ off.toNat = 0 := by bv_omega
  have at4 : off = 0x04 ↔ off.toNat = 4 := by bv_omega
  have at8 : off = 0x08 ↔ off.toNat = 8 := by bv_omega
  rw [at0, at4, at8] at readAllowed
  rw [at0, at4] at writeAllowed
  refine ⟨fun he bad => ?_, fun he bad => ?_, fun he => ?_⟩
  · refine stepsTo_of_memRead he (memRead_of_refused (fun ha => ?_) _)
    obtain ⟨rfl, place⟩ | ⟨width, aligned, place⟩ := readAllowed.1 ha <;> omega
  · refine stepsTo_of_memWrite he (memWrite_of_refused (fun ha => ?_) v _)
    obtain ⟨rfl, place⟩ | ⟨width, aligned, place⟩ := writeAllowed.1 ha <;> omega
  · exact stepsTo_of_memRead he (memRead_of_settled (by decide) (by decide) (.inr rfl))

/-! ### The codes of rejections (R101, R102), and that none stops the machine (R99) -/

/-- Settles O46: a step keeps ERRCODE, clears it, or writes one of 1..4 (O50). -/
theorem errorCodes : Obligations.ErrorCodes := by
  refine ⟨rfl, rfl, rfl, rfl, rfl, fun s t hle h => ?_⟩
  obtain ⟨-, kept⟩ | ⟨-, -, rejected, -⟩ | ⟨-, cleared, -⟩ := errorWriters s t h
  · rwa [kept]
  · exact rejected
  · simp [cleared]

/-- Settles O57: commands, writes and resets always answer, and a read of STATUS does where ERRCODE exists. -/
theorem stepNeverStops : Obligations.StepNeverStops := fun _ => step_answers

/-! ### Rejection and acceptance in the host's turn (R101, R104, R105) -/

theorem CmdError.code_of_command {c : CmdError} (h : c ≠ .illegalCmd) : c.code = 2 ∨ c.code = 3 ∨ c.code = 4 := by
  cases c with
  | illegalCmd => exact absurd rfl h
  | busy => exact .inl rfl
  | sequence => exact .inr (.inl rfl)
  | inputTooLarge => exact .inr (.inr rfl)

/-- Settles O15, from what a command can do in the host's turn. -/
theorem issueOnlyRejectsOrAccepts : Obligations.IssueOnlyRejectsOrAccepts := by
  intro i s t ht h
  obtain returned | ⟨c, hc, rfl⟩ | ⟨hb, rfl, pendable, -, -⟩ := exec_host_next ht h
  · exact .inl returned
  · exact .inr (.inl ⟨c.code, c.code_of_command hc, rfl⟩)
  · have notNop : i ≠ .nop := by rintro rfl; cases pendable
    exact .inr (.inr ⟨hb, notNop, rfl⟩)

/-- COMPRESS, FINAL and FORMAT after a finished hash (R104). -/
theorem exec_of_done {i : Instr} {s : State} (ht : s.turn = .host) (hb : s.status.busy = false)
    (hd : s.status.done = true) (hi : i = .compress ∨ (∃ r, i = .final r) ∨ ∃ r, i = .format r) :
    exec i s = .next (s.cmdError .sequence) := by
  rw [exec_host ht, unlessBusy_of_idle hb]
  obtain rfl | ⟨r, rfl⟩ | ⟨r, rfl⟩ := hi <;> exact unlessDone_of_done hd _

/-- Settles O16. -/
theorem sequenceAfterDone : Obligations.SequenceAfterDone := by
  intro s ht hb hd
  refine ⟨fun i => exec_of_done ht hb hd, ?_, exec_of_idle ht hb .nop⟩
  rintro i (rfl | rfl)
  · obtain ⟨-, accepted, -⟩ := initLoadsIv.2 s
    exact accepted ht hb
  · obtain ⟨-, accepted, -⟩ := rawcompCompresses.2 s
    exact accepted ht hb

/-- A pending FINAL or FORMAT has a tail of 0..63 bytes after at most `2^26 - 1` blocks (R26, R51). -/
theorem State.Inv.tail_le_count_le {s : State} (hs : s.Inv) {r : Nat}
    (hp : s.pend = some (.final r) ∨ s.pend = some (.format r)) : r ≤ 63 ∧ s.blkcnt.toNat ≤ 2 ^ 26 - 1 := by
  obtain hp | hp := hp <;> obtain ⟨tail, -, isOpen⟩ := hs.pend_legal _ hp <;>
    exact ⟨of_decide_eq_true tail, hs.count_open isOpen⟩

/-- Settles O17: 64 times `2^26 - 1`, and 63, are `2^32 - 1`. -/
theorem inputTooLargeIsRefused : Obligations.InputTooLargeIsRefused := by
  refine ⟨fun s ht hb hd hfull => ⟨?_, ?_⟩, fun s r hs hp => ?_⟩
  · obtain ⟨-, -, refused, -⟩ := compressAbsorbsBlock.2 s
    exact refused ht hb hd hfull
  · rintro i (rfl | ⟨r, hr, rfl⟩)
    · obtain ⟨-, accepted, -⟩ := initLoadsIv.2 s
      exact accepted ht hb
    · obtain ⟨-, -, -, accepted, -⟩ := finalPadsAndCompresses r s hr
      exact accepted ht hb hd
  · obtain ⟨tail, count⟩ := hs.tail_le_count_le hp
    omega

/-! ### Priority (R107) -/

/-- Settles O45: width before BUSY, BUSY before the decoding, DONE before the length limit. -/
theorem errorPriority : Obligations.ErrorPriority := by
  refine fun s v => ⟨fun he => ?_, fun he hb => ?_, fun he hb hd _ => ?_⟩
  · obtain ⟨-, refused, -⟩ := busErrorChangesNothing s 0x00 2 v
    exact refused he (.inl (.inr (.inr (.inl (by decide)))))
  · exact stepsTo_of_handOver (step_of_command_busy he hb)
  · apply stepsTo_of_handOver
    rw [stepRunsDecodedCommand s _ _ he compressAbsorbsBlock.1, exec_of_done (s := s.taken .ok) rfl hb hd (.inl rfl)]
    rfl

end Sys2Proof.Machine
end

section
/-!
The reset (70_reset_and_hazards.md R118 to R120): the values the spec gives, that the state is legal, and that a hash
may begin without INIT, from whatever H the reset left.
-/

namespace Sys2Proof.Machine

/-- Power-on is the platform reset of a machine that has taken no free value yet. -/
theorem reset_eq_platformReset : State.reset = { State.reset with draws := 0 }.platformReset [] := rfl

@[simp] theorem reset_blkcnt : State.reset.blkcnt = 0 := rfl
@[simp] theorem reset_turn : State.reset.turn = .host := rfl

/-- STATUS reads as 0 after a reset (R118). -/
theorem Status.reset_word : Status.reset.word = 0 := by decide

/-- Settles O55: power-on, and the step of a reset, leave `Status.reset`. -/
theorem resetValues : Obligations.ResetValues := by
  refine ⟨Status.reset_word, rfl, rfl, rfl, rfl, rfl, reset_blkcnt, rfl, fun s he => ?_⟩
  exact ⟨_, step_of_reset he, Status.reset_word, rfl, rfl, rfl⟩

/-- Settles O59: a platform reset leaves legal registers, and the host's turn. -/
theorem resetIsLegal : Obligations.ResetIsLegal := by
  refine State.reset.inv_iff_registersLegal.2 ⟨?_, by simp⟩
  rw [reset_eq_platformReset]
  exact State.RegistersLegal.platformReset _ _

/-- COMPRESS and FINAL in an idle core that has room and no finished hash: no check of R84 stops them. -/
theorem exec_of_open {s : State} (ht : s.turn = .host) (hb : s.status.busy = false) (hd : s.status.done = false)
    (hroom : s.blkcnt.toNat ≠ maxMessageBlocks) {i : Instr} (hi : i = .compress ∨ ∃ r, i = .final r) :
    exec i s = .next (s.accept i) := by
  rw [exec_host ht, unlessBusy_of_idle hb]
  obtain rfl | ⟨r, rfl⟩ := hi
  · exact (unlessDone_of_open hd _).trans (unlessFull_of_room hroom _)
  · exact unlessDone_of_open hd _

/-- Settles O56: after a reset no check stops COMPRESS or FINAL, and the completion is the one of O11. -/
theorem noInitNeededAfterReset : Obligations.NoInitNeededAfterReset := by
  constructor
  · intro i hi
    have hroom : State.reset.blkcnt.toNat ≠ maxMessageBlocks := by simp [maxMessageBlocks]
    exact ⟨_, exec_of_open rfl rfl rfl hroom hi, rfl, rfl, rfl, rfl⟩
  · obtain ⟨-, -, -, -, completes⟩ :=
      compressAbsorbsBlock.2 { State.reset with turn := .core, pend := some .compress }
    obtain ⟨w, done⟩ := completes rfl
    exact ⟨_, done, rfl⟩

end Sys2Proof.Machine
end
